-- ==== Sys2Proof/Word.lean ====
section
/-! DEFINITION. The word types of 00_scope.md R8: every value is unsigned, bit 0 is the least significant bit. -/

namespace Sys2Proof

/-- A 32-bit word (R8, R9): `+` on it is addition modulo 2^32. -/
abbrev Word := BitVec 32

/-- An 8-bit value: a message byte, a buffer byte, a digest byte (R8). -/
abbrev Byte := BitVec 8

/-- A command word, the 16 bits of the one format CMD16 (R50). -/
abbrev CmdWord := BitVec 16

/-- A 512-bit block: 64 bytes, byte 0 first (R6, R15). -/
abbrev Block := Vector Byte 64

end Sys2Proof
end

