-- ==== Sys2Proof/Machine/Operands.lean ====
section
/-! DEFINITION. Bit fields, rotation and byte order: the pseudocode primitives of 00_scope.md R9 and R10 and the operand assembly of 30_encoding.md R51. -/

namespace Sys2Proof.Machine

/-- OP = CMD[15:8] (30_encoding.md R50). -/
def opField (w : CmdWord) : Byte := w.extractLsb' 8 8

/-- DATA = CMD[7:0], used unchanged (30_encoding.md R50, R51). -/
def dataField (w : CmdWord) : Byte := w.extractLsb' 0 8

/-- The word whose OP and DATA fields are these two bytes: `{op, data}` (R8, R50). -/
def cmdWord (op data : Byte) : CmdWord := op ++ data

/-- `rotl(x, n) = ((x << n) OR (x >> (32 - n))) mod 2^32`, stated by R9 for 0 < n < 32. -/
def rotl (x : Word) (n : Nat) : Word := (x <<< n) ||| (x >>> (32 - n))

/-- `be32(b0, b1, b2, b3) = {b0, b1, b2, b3}`: the first byte is the most significant (R10, 20_memory.md R36). -/
def be32 (b0 b1 b2 b3 : Byte) : Word := b0 ++ b1 ++ b2 ++ b3

/-- `bytes_be(v, n)`: the `n` low bytes of `v`, the most significant of them first (R10, 20_memory.md R37). -/
def bytesBE {w : Nat} (v : BitVec w) : Nat → List Byte
  | 0 => []
  | n + 1 => v.extractLsb' (8 * n) 8 :: bytesBE v n

/-- Bytes read four at a time as big-endian words (20_memory.md R36). -/
def wordsBE : List Byte → List Word
  | b0 :: b1 :: b2 :: b3 :: rest => be32 b0 b1 b2 b3 :: wordsBE rest
  | _ => []

end Sys2Proof.Machine
end

