-- ==== Sys2Proof/Syntax.lean ====
section
/-! DEFINITION. The commands a host can issue: one constructor per row of spec/opcode_table.json (30_encoding.md R52). -/

namespace Sys2Proof

/-- The three commands.
ILLEGAL is no constructor: it is what the decoder answers for every other word (30_encoding.md R58), and the
micro-operations COMPRESS and PAD have no encoding (R52). -/
inductive Instr where
  /-- INIT: start a new digest computation (40_init.md R61). -/
  | init
  /-- ABSORB d: append the message byte `d`, any of the 256 values (41_absorb.md R65, 30_encoding.md R51). -/
  | absorb (d : Byte)
  /-- FINALIZE: pad, compress the last block or blocks, answer the digest (43_finalize.md R89). -/
  | finalize
  deriving DecidableEq, Repr

end Sys2Proof
end

