-- ==== Sys2Proof/Decode.lean ====
section
/-! DEFINITION. The decoder, total on every command word and rejecting by name (30_encoding.md R57, R58), and after it the encoder (R52). -/

namespace Sys2Proof

/-- Why a word is ILLEGAL: its OP is reserved (30_encoding.md R53), or it is INIT or FINALIZE with nonzero DATA (R54).
The engine's answer is the same for both (60_exceptions.md R102). -/
inductive Illegal where
  | reservedOp (op : Byte)
  | reservedData (op data : Byte)
  deriving DecidableEq, Repr

/-- `decode(w)` of R58. -/
def decode (w : CmdWord) : Except Illegal Instr :=
  let op := Machine.opField w
  let data := Machine.dataField w
  if op = 0x01#8 then
    if data = 0x00#8 then .ok .init else .error (.reservedData op data)
  else if op = 0x02#8 then .ok (.absorb data)
  else if op = 0x03#8 then
    if data = 0x00#8 then .ok .finalize else .error (.reservedData op data)
  else .error (.reservedOp op)

/-- The word of a command (R52). -/
def encode : Instr → CmdWord
  | .init => Machine.cmdWord 0x01#8 0x00#8
  | .absorb d => Machine.cmdWord 0x02#8 d
  | .finalize => Machine.cmdWord 0x03#8 0x00#8

/-- The opcode table's `match` column (R52). -/
def rowMatch : Instr → CmdWord
  | .init => 0x0100#16
  | .absorb _ => 0x0200#16
  | .finalize => 0x0300#16

/-- The opcode table's `mask` column (R52). -/
def rowMask : Instr → CmdWord
  | .init => 0xFFFF#16
  | .absorb _ => 0xFF00#16
  | .finalize => 0xFFFF#16

/-- The command word a table row's bits stand for: every bit above `nbits` is 0.
A command is one word, so bit 0 of the table's numbering is CMD[0] (R50). -/
def tableWord (nbits w : Nat) : CmdWord := BitVec.ofNat 16 (w % 2 ^ nbits)

/-- The command the decoder reads from a table row's word; none where it answers ILLEGAL. -/
def decodeTableWord (nbits w : Nat) : Option Instr :=
  match decode (tableWord nbits w) with
  | .ok i => some i
  | .error _ => none

end Sys2Proof
end

