-- ==== Sys2Proof/Machine/Constants.lean ====
section
/-! DEFINITION. The fixed numbers of the algorithm: the initialization vector (40_init.md R62) and the round constants (42_compress.md R78). -/

namespace Sys2Proof.Machine

/-- H[0] of the initialization vector (R62). -/
def iv0 : Word := 0x67452301#32
/-- H[1] of the initialization vector (R62). -/
def iv1 : Word := 0xEFCDAB89#32
/-- H[2] of the initialization vector (R62). -/
def iv2 : Word := 0x98BADCFE#32
/-- H[3] of the initialization vector (R62). -/
def iv3 : Word := 0x10325476#32
/-- H[4] of the initialization vector (R62). -/
def iv4 : Word := 0xC3D2E1F0#32

/-- `K_t`, one constant per 20-round phase (42_compress.md R78, R85). -/
def roundK (t : Nat) : Word :=
  if t ≤ 19 then 0x5A827999#32
  else if t ≤ 39 then 0x6ED9EBA1#32
  else if t ≤ 59 then 0x8F1BBCDC#32
  else 0xCA62C1D6#32

/-- The largest value of the 55-bit block counter, 2^55 - 1 (10_state.md R24, 41_absorb.md R66). -/
def maxBlkcnt : BitVec 55 := BitVec.allOnes 55

end Sys2Proof.Machine
end

