-- ==== Sys2Proof/Machine/State.lean ====
section
/-! DEFINITION. Everything the spec gives the machine (10_state.md R13, R19, R24), the host's side of the interface (30_encoding.md R49, R55; 70_reset_and_hazards.md R116, R126), and the state after reset (R31). -/

namespace Sys2Proof.Machine

/-- PHASE, the lifecycle state (10_state.md R19). -/
inductive Phase where
  | active
  | finalized
  deriving DecidableEq, Repr

/-- The accumulator H[0..4] (10_state.md R14). -/
structure Acc where
  h0 : Word
  h1 : Word
  h2 : Word
  h3 : Word
  h4 : Word
  deriving DecidableEq, Repr

/-- The architectural state `(H, BUF, CUR, BLKCNT, PHASE)` of 10_state.md R13; "Nothing else is architectural". -/
structure Engine where
  /-- H, 5 x u32 (R14). -/
  h : Acc
  /-- BUF, 64 x u8 (R15). -/
  buf : Block
  /-- CUR, u6: bytes filled and index of the next byte (R16). -/
  cur : BitVec 6
  /-- BLKCNT, u55: blocks compressed since INIT or reset (R17). -/
  blkcnt : BitVec 55
  /-- PHASE (R19). -/
  phase : Phase
  deriving DecidableEq, Repr

/-- The response codes (30_encoding.md R56). -/
inductive ResponseCode where
  /-- The command was performed. -/
  | ok
  /-- A word that decodes to ILLEGAL (60_exceptions.md R102). -/
  | errIllegal
  /-- ABSORB or FINALIZE while PHASE = FINALIZED (R103). -/
  | errFinalized
  /-- The ABSORB that would make the message 2^61 bytes long (R104). -/
  | errLength
  deriving DecidableEq, Repr

/-- One response `(CODE, PAYLOAD)` (30_encoding.md R55). -/
structure Response where
  code : ResponseCode
  payload : List Byte
  deriving DecidableEq, Repr

/-- What the world outside can do to the engine: issue a command word (30_encoding.md R49) or reset it between
commands (70_reset_and_hazards.md R116, R117). -/
inductive HostEvent where
  | command (w : CmdWord)
  | reset
  deriving DecidableEq, Repr

/-- The machine: the engine, what its host is about to do, and what the host has seen.
`engine` is the hardware's; the other three fields are the model's own (notes/assumptions 1, 2 and 3). -/
structure State where
  /-- The architectural state (10_state.md R13). -/
  engine : Engine
  /-- The host's coming events in issue order, the next one first (20_memory.md R44). -/
  pending : List HostEvent
  /-- Every response so far, in issue order, the oldest first (70_reset_and_hazards.md R126). -/
  responses : List Response
  /-- R115's model-only fault mark: some response so far was not OK. -/
  faultMark : Bool
  deriving DecidableEq, Repr

/-- Faults of the model: none.
Every error of this hardware is a response after which the engine goes on (60_exceptions.md R101, R106, R108), so no
meaning and no step stops with a fault (safe: the type is empty). -/
inductive Fault where
  deriving DecidableEq, Repr

/-- Refusals of the model.
`notModelled` would be raised by an arm of `exec` that has no meaning yet (safe); no arm is in that case. -/
inductive Refusal where
  | notModelled (mnemonic : String)
  deriving DecidableEq, Repr

/-- The initialization vector (40_init.md R62). -/
def Acc.iv : Acc := ⟨iv0, iv1, iv2, iv3, iv4⟩

/-- The engine after reset and after INIT (10_state.md R31, 40_init.md R61). -/
def Engine.fresh : Engine where
  h := Acc.iv
  buf := Vector.replicate 64 0#8
  cur := 0#6
  blkcnt := 0#55
  phase := .active

/-- The machine right after reset: the engine of R31, no command issued yet, nothing answered yet. -/
def State.reset : State where
  engine := Engine.fresh
  pending := []
  responses := []
  faultMark := false

end Sys2Proof.Machine
end

