-- ==== Sys2Proof/Machine/Flags.lean ====
section
/-! DEFINITION. The engine's one status bit, PHASE, and the checks a command makes before it writes anything (10_state.md R23, R24; 41_absorb.md R66; 60_exceptions.md R105). The engine has no condition codes. -/

namespace Sys2Proof.Machine

/-- PHASE as a bit: ACTIVE = 0, FINALIZED = 1 (10_state.md R24). -/
def Phase.bit : Phase → BitVec 1
  | .active => 0#1
  | .finalized => 1#1

/-- CODE, an unsigned 8-bit value (30_encoding.md R56). -/
def ResponseCode.value : ResponseCode → Byte
  | .ok => 0x00#8
  | .errIllegal => 0x01#8
  | .errFinalized => 0x02#8
  | .errLength => 0x03#8

/-- The message holds 2^61 - 1 bytes: BLKCNT = 2^55 - 1 and CUR = 63 (41_absorb.md R66). -/
def Engine.lengthFull (e : Engine) : Bool := e.blkcnt = maxBlkcnt ∧ e.cur = 63#6

/-- ABSORB's checks: PHASE first, then length (41_absorb.md R66). -/
def Engine.absorbError (e : Engine) : Option ResponseCode :=
  if e.phase = .finalized then some .errFinalized
  else if e.lengthFull then some .errLength
  else none

/-- FINALIZE's check: PHASE (43_finalize.md R89, R97). -/
def Engine.finalizeError (e : Engine) : Option ResponseCode :=
  if e.phase = .finalized then some .errFinalized else none

end Sys2Proof.Machine
end

