-- ==== Sys2Proof/Machine/Compress.lean ====
section
/-! DEFINITION. COMPRESS, the block transform (42_compress.md R73 to R88). -/

namespace Sys2Proof.Machine

/-- The working words a to e of one COMPRESS (10_state.md R26, 42_compress.md R77). -/
structure Working where
  a : Word
  b : Word
  c : Word
  d : Word
  e : Word
  deriving DecidableEq, Repr

/-- Ch, rounds 0 to 19 (R79). -/
def fCh (b c d : Word) : Word := (b &&& c) ||| (~~~b &&& d)

/-- Parity, rounds 20 to 39 and 60 to 79 (R80). -/
def fParity (b c d : Word) : Word := b ^^^ c ^^^ d

/-- Maj, rounds 40 to 59 (R81). -/
def fMaj (b c d : Word) : Word := (b &&& c) ||| (b &&& d) ||| (c &&& d)

/-- `f_t`, the function of round t's phase (R78). -/
def roundF (t : Nat) (b c d : Word) : Word :=
  if t ≤ 19 then fCh b c d
  else if t ≤ 39 then fParity b c d
  else if t ≤ 59 then fMaj b c d
  else fParity b c d

/-- The next schedule word `W[i]`, i = the number of words so far, for i of 16 or more (R75). -/
def nextScheduleWord (ws : List Word) : Word :=
  rotl (ws.getD (ws.length - 3) 0#32 ^^^ ws.getD (ws.length - 8) 0#32 ^^^ ws.getD (ws.length - 14) 0#32
    ^^^ ws.getD (ws.length - 16) 0#32) 1

/-- `n` more schedule words, in increasing index (R75). -/
def extendSchedule : Nat → List Word → List Word
  | 0, ws => ws
  | n + 1, ws => extendSchedule n (ws ++ [nextScheduleWord ws])

/-- The schedule W[0..79] of a block: its 16 big-endian words and 64 more (R74, R75). -/
def schedule (block : Block) : List Word := extendSchedule 64 (wordsBE block.toList)

/-- One round on the word `W[t]` (R82). -/
def roundStep (t : Nat) (w : Word) (k : Working) : Working where
  a := rotl k.a 5 + roundF t k.b k.c k.d + k.e + roundK t + w
  b := k.a
  c := rotl k.b 30
  d := k.c
  e := k.d

/-- The rounds on the words of a list, the first of them being round `t` (R82). -/
def runRounds : Nat → List Word → Working → Working
  | _, [], k => k
  | t, w :: ws, k => runRounds (t + 1) ws (roundStep t w k)

/-- The working copy before round 0 (R77). -/
def workingCopy (h : Acc) : Working := ⟨h.h0, h.h1, h.h2, h.h3, h.h4⟩

/-- The feed-forward after round 79, each addition modulo 2^32 (R83). -/
def feedForward (h : Acc) (k : Working) : Acc :=
  ⟨h.h0 + k.a, h.h1 + k.b, h.h2 + k.c, h.h3 + k.d, h.h4 + k.e⟩

/-- COMPRESS(H, B), a pure function of the accumulator and the block (R73, R84, R85).
Irreducible, so that no proof unfolds 80 rounds by accident; the kernel evaluates it all the same. -/
@[irreducible] def compress (h : Acc) (block : Block) : Acc :=
  feedForward h (runRounds 0 (schedule block) (workingCopy h))

end Sys2Proof.Machine
end

