-- ==== Sys2Proof/Machine/Ops.lean ====
section
/-! DEFINITION. The shared operations: the absorb step, padding and digest on the engine (41_absorb.md R68, R69; 43_finalize.md R90 to R95), and the ways a command or an event ends (00_scope.md R10; 60_exceptions.md R106; 70_reset_and_hazards.md R116). -/

namespace Sys2Proof.Machine

/-! ### The engine -/

/-- `block_full()` (41_absorb.md R69). -/
def Engine.blockFull (e : Engine) : Engine where
  h := compress e.h e.buf
  buf := Vector.replicate 64 0x00#8
  cur := 0#6
  blkcnt := e.blkcnt + 1#55
  phase := e.phase

/-- `BUF[CUR] <- d` (41_absorb.md R68). -/
def Engine.store (e : Engine) (d : Byte) : Engine :=
  { e with buf := e.buf.set e.cur.toNat d e.cur.isLt }

/-- `absorb_step(d)`: store, then a full block when the 7-bit `n = CUR + 1` reaches 64, else `CUR <- n` (41_absorb.md R68). -/
def Engine.absorbStep (e : Engine) (d : Byte) : Engine :=
  let n : BitVec 7 := e.cur.setWidth 7 + 1#7
  if n = 64#7 then (e.store d).blockFull else { e.store d with cur := n.setWidth 6 }

/-- Bytes through the absorb step, in order, with no check (43_finalize.md R92). -/
def Engine.absorbBytes (e : Engine) (bs : List Byte) : Engine := bs.foldl Engine.absorbStep e

/-- `L = 512 * BLKCNT + 8 * CUR` as a 64-bit value (43_finalize.md R90). -/
def Engine.messageBits (e : Engine) : BitVec 64 :=
  512#64 * e.blkcnt.setWidth 64 + 8#64 * e.cur.setWidth 64

/-- `k = (55 - c) mod 64`, the zero bytes of the padding (43_finalize.md R91). -/
def padZeros (c : BitVec 6) : Nat := (55#6 - c).toNat

/-- `pad_bytes(c, L)`: 0x80, k zero bytes, the length (43_finalize.md R91). -/
def padBytes (c : BitVec 6) (l : BitVec 64) : List Byte :=
  0x80#8 :: (List.replicate (padZeros c) 0x00#8 ++ bytesBE l 8)

/-- PAD: the padding of the message so far through the absorb step, L captured first (43_finalize.md R90 to R93). -/
def Engine.pad (e : Engine) : Engine := e.absorbBytes (padBytes e.cur e.messageBits)

/-- The digest bytes of an accumulator, H[0] first (43_finalize.md R95, 20_memory.md R38). -/
def digestBytes (h : Acc) : List Byte :=
  bytesBE h.h0 4 ++ bytesBE h.h1 4 ++ bytesBE h.h2 4 ++ bytesBE h.h3 4 ++ bytesBE h.h4 4

/-! ### How a command or an event ends -/

/-- `respond(code, payload)` (00_scope.md R10, 30_encoding.md R55); a code that is not OK sets the fault mark
(60_exceptions.md R115). -/
def State.respond (s : State) (code : ResponseCode) (payload : List Byte) : State :=
  { s with
    responses := s.responses ++ [⟨code, payload⟩]
    faultMark := s.faultMark || decide (code ≠ .ok) }

/-- `raise Err(code)`: the error response and no change of the engine (60_exceptions.md R106).
There is no return from it: the next command is performed on the unchanged engine (R108). -/
def State.raiseErr (s : State) (code : ResponseCode) : State := s.respond code []

/-- The ILLEGAL command: `raise Err(ERR_ILLEGAL)` in either phase (30_encoding.md R58, 60_exceptions.md R102). -/
def State.takeIllegal (s : State) : State := s.raiseErr .errIllegal

/-- A reset: the engine of 10_state.md R31 and no response (70_reset_and_hazards.md R116); the host's record and the
fault mark stay (60_exceptions.md R115, entry 3). -/
def State.takeReset (s : State) : State := { s with engine := Engine.fresh }

/-- No event is waiting: nothing changes (10_state.md R33, 60_exceptions.md R113, entry 4). -/
def State.idle (s : State) : State := s

/-- The event at the head of the host's list, and the machine once it is taken from the list (20_memory.md R44). -/
def State.nextEvent (s : State) : Option (HostEvent × State) :=
  match s.pending with
  | [] => none
  | ev :: rest => some (ev, { s with pending := rest })

/-- The host issues this word next (entry 1). -/
def State.issueNext (s : State) (w : CmdWord) : State := { s with pending := .command w :: s.pending }

end Sys2Proof.Machine
end

