-- ==== Sys2Proof/Machine/Absorb.lean ====
section
/-! DEFINITION. ABSORB (41_absorb.md R65 to R72). -/

namespace Sys2Proof.Machine

/-- ABSORB d: the two checks in order, then the absorb step (R65, R66). -/
def execAbsorb (d : Byte) (s : State) : Host.Outcome State Fault Refusal :=
  match s.engine.absorbError with
  | some code => .next (s.raiseErr code)
  | none => .next (State.respond { s with engine := s.engine.absorbStep d } .ok [])

end Sys2Proof.Machine
end

