-- ==== Sys2Proof/Machine/Finalize.lean ====
section
/-! DEFINITION. FINALIZE (43_finalize.md R89 to R100). -/

namespace Sys2Proof.Machine

/-- FINALIZE: the check, PAD, the digest of the padded engine's accumulator, PHASE (R89, R96). -/
def execFinalize (s : State) : Host.Outcome State Fault Refusal :=
  match s.engine.finalizeError with
  | some code => .next (s.raiseErr code)
  | none =>
    let padded := s.engine.pad
    .next (State.respond { s with engine := { padded with phase := .finalized } } .ok (digestBytes padded.h))

end Sys2Proof.Machine
end

