-- ==== Sys2Proof/Machine/Init.lean ====
section
/-! DEFINITION. INIT (40_init.md R61 to R64). -/

namespace Sys2Proof.Machine

/-- INIT: all of H, BUF, CUR, BLKCNT and PHASE written, in either phase, with no error (R61, R62, R63). -/
def execInit (s : State) : Host.Outcome State Fault Refusal :=
  .next (State.respond { s with engine := Engine.fresh } .ok [])

end Sys2Proof.Machine
end

