-- ==== Sys2Proof/Machine/Step.lean ====
section
/-! DEFINITION. One step: the host's next event, taken and performed (20_memory.md R44, 70_reset_and_hazards.md R121). -/

namespace Sys2Proof.Machine

/-- The next event is a reset (R116), a command that decodes, or an ILLEGAL word (30_encoding.md R58); with no event the
engine is idle (10_state.md R33). -/
def step (s : State) : Host.Outcome State Fault Refusal :=
  match s.nextEvent with
  | none => .next s.idle
  | some (.reset, s') => .next s'.takeReset
  | some (.command w, s') =>
    match decode w with
    | .ok i => exec i s'
    | .error _ => .next s'.takeIllegal

/-- `s` with this table word as the next one its host issues (entry 1). -/
def State.withFetchWord (s : State) (nbits w : Nat) : State := s.issueNext (tableWord nbits w)

end Sys2Proof.Machine
end

