-- ==== Sys2Proof/Assembly.lean ====
section
/-! DEFINITION. The terms of the assembler syntax (30_encoding.md R59) and of the pseudo-instructions (R60); their expansion to command words is in Sys2Proof/Machine/Assembler.lean. -/

namespace Sys2Proof

/-- The operand of ABSORB: a number, in decimal or hex, or a quoted one-character literal (R59). -/
inductive AsmByte where
  | num (n : Nat)
  | chr (c : Char)
  deriving DecidableEq, Repr

/-- The operand of ABSORBS and HASH: a list of bytes or a quoted text (R60). -/
inductive AsmBytes where
  | list (bs : List AsmByte)
  | text (cs : List Char)
  deriving DecidableEq, Repr

/-- One assembler line (R59, R60); `blank` is a line with at most a comment. -/
inductive AsmLine where
  | blank
  | init
  | absorb (b : AsmByte)
  | finalize
  | word (n : Nat)
  | absorbs (bs : AsmBytes)
  | hash (bs : AsmBytes)
  deriving DecidableEq, Repr

end Sys2Proof
end

