-- ==== Sys2Proof/WellFormed.lean ====
section
/-! DEFINITION. What is well-formed: every command, by its types (30_encoding.md R51); and the assembler terms whose numbers and characters are in the ranges of R59 and 00_scope.md R11. -/

namespace Sys2Proof

/-- Every command is well-formed: INIT and FINALIZE carry no operand, and every DATA value is legal for ABSORB (R51, R54). -/
def Instr.wellFormed : Instr → Bool
  | .init => true
  | .absorb _ => true
  | .finalize => true

/-- "imm8 is a number 0..255 ... or a one-character quoted ASCII literal" (R59). -/
def AsmByte.wellFormed : AsmByte → Bool
  | .num n => n ≤ 255
  | .chr c => c.toNat ≤ 127

/-- Each byte in its range; a quoted text is ASCII (R60, R11). -/
def AsmBytes.wellFormed : AsmBytes → Bool
  | .list bs => bs.all AsmByte.wellFormed
  | .text cs => cs.all (fun c => c.toNat ≤ 127)

/-- `.word imm16` takes a 16-bit number (R59); that a larger one is refused is the model's choice (entry 9). -/
def AsmLine.wellFormed : AsmLine → Bool
  | .blank => true
  | .init => true
  | .absorb b => b.wellFormed
  | .finalize => true
  | .word n => n ≤ 65535
  | .absorbs bs => bs.wellFormed
  | .hash bs => bs.wellFormed

end Sys2Proof
end

