-- ==== Sys2Proof/Machine/Assembler.lean ====
section
/-! DEFINITION. The assembler: words of each line (30_encoding.md R59), the pseudo-instructions' expansions (R60), reading a line's text (R59, entry 9), and the printed form of bytes (00_scope.md R11). -/

namespace Sys2Proof.Machine

/-- The byte an operand stands for: a number, or the ASCII code of a character (R59, R11). -/
def asmByteValue : AsmByte → Byte
  | .num n => BitVec.ofNat 8 n
  | .chr c => BitVec.ofNat 8 c.toNat

/-- The bytes of an operand list or of a quoted text (R60, R11). -/
def asmBytesValue : AsmBytes → List Byte
  | .list bs => bs.map asmByteValue
  | .text cs => cs.map (fun c => BitVec.ofNat 8 c.toNat)

/-- `ABSORBS b0, ..., b(n-1)`: one ABSORB per byte, in order; nothing for n = 0 (R60, 41_absorb.md R70). -/
def absorbsCommands (m : List Byte) : List Instr := m.map Instr.absorb

/-- `HASH m`: INIT, ABSORBS m, FINALIZE (R60). -/
def hashCommands (m : List Byte) : List Instr := Instr.init :: (absorbsCommands m ++ [Instr.finalize])

/-- The words of a well-formed line (R59, R60); no words are made of a line that is not well-formed. -/
def assembleLine (l : AsmLine) : Option (List CmdWord) :=
  if l.wellFormed then
    match l with
    | .blank => some []
    | .init => some [0x0100#16]
    | .absorb b => some [0x0200#16 ||| (asmByteValue b).setWidth 16]
    | .finalize => some [0x0300#16]
    | .word n => some [BitVec.ofNat 16 n]
    | .absorbs bs => some ((absorbsCommands (asmBytesValue bs)).map encode)
    | .hash bs => some ((hashCommands (asmBytesValue bs)).map encode)
  else none

/-- The words of a program, line after line. -/
def assemble : List AsmLine → Option (List CmdWord)
  | [] => some []
  | l :: ls =>
    match assembleLine l, assemble ls with
    | some ws, some rest => some (ws ++ rest)
    | _, _ => none

/-! ### Reading a line's text -/

/-- A space or a tab. -/
def isGap (c : Char) : Bool := c = ' ' || c = '\t'

/-- The text after its leading gap. -/
def skipGap (cs : List Char) : List Char := cs.dropWhile isGap

/-- Nothing but a gap or a comment is left: "Comments start with `;`" (R59). -/
def atLineEnd (cs : List Char) : Bool :=
  match skipGap cs with
  | [] => true
  | c :: _ => c = ';'

/-- The value of a hex digit, either case. -/
def hexDigit (c : Char) : Option Nat :=
  if '0' ≤ c ∧ c ≤ '9' then some (c.toNat - '0'.toNat)
  else if 'a' ≤ c ∧ c ≤ 'f' then some (c.toNat - 'a'.toNat + 10)
  else if 'A' ≤ c ∧ c ≤ 'F' then some (c.toNat - 'A'.toNat + 10)
  else none

/-- Digits of a base from the left, with the value and the digits read so far. -/
def readDigits (base : Nat) : Nat → Nat → List Char → Option (Nat × List Char)
  | n, k, [] => if k = 0 then none else some (n, [])
  | n, k, c :: cs =>
    match hexDigit c with
    | some d => if d < base then readDigits base (n * base + d) (k + 1) cs else
        if k = 0 then none else some (n, c :: cs)
    | none => if k = 0 then none else some (n, c :: cs)

/-- A number "in decimal or `0x` hex", R59's words for imm8; that `.word` takes it too is the model's choice (entry 9). -/
def readNumber : List Char → Option (Nat × List Char)
  | '0' :: 'x' :: cs => readDigits 16 0 0 cs
  | cs => readDigits 10 0 0 cs

/-- The operand of ABSORB (R59). -/
def readByte : List Char → Option (AsmByte × List Char)
  | '\'' :: c :: '\'' :: cs => some (.chr c, cs)
  | cs =>
    match readNumber cs with
    | some (n, rest) => some (.num n, rest)
    | none => none

/-- Bytes separated by commas; the first argument bounds how many (a line has no more than characters). -/
def readByteList : Nat → List Char → Option (List AsmByte × List Char)
  | 0, _ => none
  | fuel + 1, cs =>
    match readByte (skipGap cs) with
    | none => none
    | some (b, rest) =>
      match skipGap rest with
      | ',' :: more =>
        match readByteList fuel more with
        | some (bs, last) => some (b :: bs, last)
        | none => none
      | last => some ([b], last)

/-- The characters up to the closing double quote. -/
def readText : List Char → Option (List Char × List Char)
  | [] => none
  | c :: cs =>
    if c = '"' then some ([], cs)
    else match readText cs with
      | some (t, rest) => some (c :: t, rest)
      | none => none

/-- The operand of ABSORBS and HASH: nothing at all, a quoted text, or a byte list (R60). -/
def readBytes (cs : List Char) : Option (AsmBytes × List Char) :=
  if atLineEnd cs then some (.list [], cs)
  else match skipGap cs with
    | '"' :: rest =>
      match readText rest with
      | some (t, last) => some (.text t, last)
      | none => none
    | rest =>
      match readByteList (rest.length + 1) rest with
      | some (bs, last) => some (.list bs, last)
      | none => none

/-- A line made of what was read, if nothing but a gap or a comment follows it. -/
def closeLine {α : Type} (make : α → AsmLine) : Option (α × List Char) → Option AsmLine
  | some (x, rest) => if atLineEnd rest then some (make x) else none
  | none => none

/-- The characters of a line's first word, and the rest. -/
def splitWord : List Char → List Char × List Char
  | [] => ([], [])
  | c :: cs =>
    if isGap c || c = ';' then ([], c :: cs)
    else ((c :: (splitWord cs).1), (splitWord cs).2)

/-- One line of assembler text (R59, R60).
DESIGN CHOICE (entry 9): R59 gives no written form for the imm16 of `.word`; here it is a number in decimal or `0x` hex, and a
quoted character is refused. -/
def parseLine (cs : List Char) : Option AsmLine :=
  if atLineEnd cs then some .blank
  else
    let w := (splitWord (skipGap cs)).1
    let rest := (splitWord (skipGap cs)).2
    if w = ['I', 'N', 'I', 'T'] then closeLine (fun _ => .init) (some ((), rest))
    else if w = ['F', 'I', 'N', 'A', 'L', 'I', 'Z', 'E'] then closeLine (fun _ => .finalize) (some ((), rest))
    else if w = ['A', 'B', 'S', 'O', 'R', 'B'] then closeLine .absorb (readByte (skipGap rest))
    else if w = ['.', 'w', 'o', 'r', 'd'] then closeLine .word (readNumber (skipGap rest))
    else if w = ['A', 'B', 'S', 'O', 'R', 'B', 'S'] then closeLine .absorbs (readBytes rest)
    else if w = ['H', 'A', 'S', 'H'] then closeLine .hash (readBytes rest)
    else none

/-! ### Printing bytes -/

/-- The lowercase hex digit of a four-bit value (R11). -/
def hexChar (n : BitVec 4) : Char :=
  if n.toNat < 10 then Char.ofNat ('0'.toNat + n.toNat) else Char.ofNat ('a'.toNat + (n.toNat - 10))

/-- "lowercase hexadecimal, two characters per byte, most-significant nibble first, no separators, no prefix" (R11). -/
def printBytes : List Byte → List Char
  | [] => []
  | b :: bs => hexChar (b.extractLsb' 4 4) :: hexChar (b.extractLsb' 0 4) :: printBytes bs

end Sys2Proof.Machine
end

