-- ==== Sys2Proof/Machine/System.lean ====
section
/-! DEFINITION. Several engines (00_scope.md R7, 60_exceptions.md R114): a list of machines, of which one takes a step. -/

namespace Sys2Proof.Machine

/-- The engine with this position takes a step; the others are untouched, for they share no state (R114, entry 10). -/
def systemStep (engines : List State) (k : Nat) : List State :=
  match engines[k]? with
  | none => engines
  | some s =>
    match step s with
    | .next t => engines.set k t
    | .fault _ => engines
    | .refused _ => engines

end Sys2Proof.Machine
end

