-- ==== Sys2Proof/Machine/Window.lean ====
section
/-! DEFINITION. COMPRESS with the schedule kept in 16 words, the storage 42_compress.md R76 allows: word i at index i mod 16, computed as round i needs it. The commands use `compress`; the two are equal (R76). -/

namespace Sys2Proof.Machine

/-- The word of round `t` from the window: stored for t below 16, else R75's recurrence over indices mod 16 (R76). -/
def windowWord (win : Vector Word 16) (t : Nat) : Word :=
  if t < 16 then win[t % 16]'(Nat.mod_lt _ (by decide))
  else rotl (win[(t - 3) % 16]'(Nat.mod_lt _ (by decide)) ^^^ win[(t - 8) % 16]'(Nat.mod_lt _ (by decide))
    ^^^ win[(t - 14) % 16]'(Nat.mod_lt _ (by decide)) ^^^ win[(t - 16) % 16]'(Nat.mod_lt _ (by decide))) 1

/-- `n` rounds from round `t` on, each storing its word over the oldest one (R76, R82). -/
def runWindow : Nat → Nat → Vector Word 16 → Working → Working
  | 0, _, _, k => k
  | n + 1, t, win, k =>
    let w := windowWord win t
    runWindow n (t + 1) (win.set (t % 16) w (Nat.mod_lt _ (by decide))) (roundStep t w k)

/-- Word i of a block, from its bytes 4i to 4i+3 (R74). -/
def blockWord (block : Block) (i : Fin 16) : Word :=
  be32 (block[4 * i.val]'(by omega)) (block[4 * i.val + 1]'(by omega)) (block[4 * i.val + 2]'(by omega))
    (block[4 * i.val + 3]'(by omega))

/-- COMPRESS over the 16-word window (R76). -/
def compressWindow (h : Acc) (block : Block) : Acc :=
  feedForward h (runWindow 80 0 (Vector.ofFn (blockWord block)) (workingCopy h))

end Sys2Proof.Machine
end

