-- ==== Sys2Proof/Config.lean ====
section
/-! DEFINITION. What an implementation chooses, the latency of a command, the one OPEN parameter of the spec (70_reset_and_hazards.md R124), and the value the source leaves undefined, the length field of an overlong message (00_scope.md R5). Every size is fixed (00_scope.md R6) and stands in the types of Machine/State.lean. -/

namespace Sys2Proof

/-- `cycles(command, state)`: "How many cycles a command takes is left to the implementation" (R124).
No rule of the spec reads it, so no definition does (entry 7). -/
opaque Config.cycles : Instr → Machine.Engine → Nat

/-- The length field of a message of this many bytes, 2^61 or more, whose bit length the field cannot hold.
The source calls the case undefined (00_scope.md R5) and the spec claims neither a wrap nor a panic (92_eei_decisions.md
D8), so this is a free value (DESIGN CHOICE, entry 12). The engine refuses such a message (60_exceptions.md R104): no
command and no step reads this. -/
opaque Config.overlongLengthField : Nat → BitVec 64

end Sys2Proof
end

