-- ==== Sys2Proof/Machine/Message.lean ====
section
/-! DEFINITION. SHA-1 of a whole message, the function the engine computes command by command (00_scope.md R2, R12; 30_encoding.md R60 `hash(M)`): the message padded (43_finalize.md R91), cut into 64-byte blocks, COMPRESS folded over them from the initialization vector, the accumulator serialised (R95). Statements speak of it; no command calls it. -/

namespace Sys2Proof.Machine

/-- The first 64 bytes of a byte sequence of 64 or more. -/
def firstBlock (bs : List Byte) : Block := Vector.ofFn (fun i => bs.getD i.val 0x00#8)

/-- COMPRESS over the first `n` blocks of a byte sequence, in order. -/
def hashBlocks : Nat → Acc → List Byte → Acc
  | 0, h, _ => h
  | n + 1, h, bs => hashBlocks n (compress h (firstBlock bs)) (bs.drop 64)

/-- The length field of a message of `n` bytes: its length in bits (43_finalize.md R90). From 2^61 bytes on, where 64 bits
do not hold it, a free value (entry 12). -/
def lengthField (n : Nat) : BitVec 64 :=
  if n < 2 ^ 61 then BitVec.ofNat 64 (8 * n) else Config.overlongLengthField n

/-- The message followed by its padding: 0x80, the least number of zero bytes that brings the length to 56 mod 64, and
the length field as 8 big-endian bytes (43_finalize.md R91). For a message of 2^61 bytes or more that field, and so the
digest, is open (entry 12). -/
def padMessage (m : List Byte) : List Byte :=
  m ++ 0x80#8 :: (List.replicate ((119 - m.length % 64) % 64) 0x00#8 ++ bytesBE (lengthField m.length) 8)

/-- `hash(M)` of 30_encoding.md R60, stated by the spec for messages of fewer than 2^61 bytes (entry 12). -/
def hashMessage (m : List Byte) : List Byte :=
  digestBytes (hashBlocks ((padMessage m).length / 64) Acc.iv (padMessage m))

end Sys2Proof.Machine
end

