-- ==== Sys2Proof/Safety.lean ====
section
/-! DEFINITION. The terms claims use: correct use of the engine, well-formed states, the message an engine holds, and when two engines are the same but for what no rule reads. -/

namespace Sys2Proof.Machine

/-- Correct use so far: no response was other than OK (60_exceptions.md R115). -/
def State.noFaultRecorded (s : State) : Bool := !s.faultMark

/-- T, the number of message bytes, `64 * BLKCNT + CUR` (10_state.md R18). -/
def Engine.totalLength (e : Engine) : Nat := 64 * e.blkcnt.toNat + e.cur.toNat

/-- Every byte at or after the cursor is 0x00 (10_state.md R20, R30). -/
def Engine.zeroTail (e : Engine) : Prop :=
  ∀ (j : Nat) (hj : j < 64), e.cur.toNat ≤ j → e.buf[j] = 0x00#8

/-- A response has the shape of 30_encoding.md R55: no payload, or OK with 20 bytes. -/
def Response.wellShaped (r : Response) : Prop :=
  r.payload = [] ∨ (r.code = .ok ∧ r.payload.length = 20)

/-- What holds between commands: the buffer tail is zero (10_state.md R20), a finalized engine has an empty buffer
(R29), every response has its shape (30_encoding.md R55), and the fault mark says whether one of them was not OK
(60_exceptions.md R115). -/
structure State.Inv (s : State) : Prop where
  zeroTail : s.engine.zeroTail
  finalizedEmpty : s.engine.phase = .finalized → s.engine.cur = 0#6
  responsesShaped : ∀ r ∈ s.responses, r.wellShaped
  markRecords : s.faultMark = s.responses.any (fun r => decide (r.code ≠ .ok))

/-- The engine is ACTIVE and has absorbed exactly the message `m`: T is its length, H the fold of COMPRESS over its
whole blocks, and the filled part of BUF the bytes after them (10_state.md R13 to R19, 00_scope.md R12 "Message"). -/
structure Engine.Holds (e : Engine) (m : List Byte) : Prop where
  active : e.phase = .active
  length : m.length = e.totalLength
  blocks : e.h = hashBlocks e.blkcnt.toNat Acc.iv m
  filled : ∀ (j : Nat) (hj : j < 64), j < e.cur.toNat → m[64 * e.blkcnt.toNat + j]? = some e.buf[j]

/-- The same but for the buffer bytes at or after the cursor, which no rule reads (10_state.md R20). -/
structure Engine.SameButTail (e f : Engine) : Prop where
  h : e.h = f.h
  cur : e.cur = f.cur
  blkcnt : e.blkcnt = f.blkcnt
  phase : e.phase = f.phase
  filled : ∀ (j : Nat) (hj : j < 64), j < e.cur.toNat → e.buf[j] = f.buf[j]

/-- The same for the host: equal but for the buffer tail, or both FINALIZED, where nothing else can be observed
(10_state.md R20, R29). -/
def Engine.SameForHost (e f : Engine) : Prop :=
  e.SameButTail f ∨ (e.phase = .finalized ∧ f.phase = .finalized)

/-- The machine with a host that is about to issue these commands, and no more for now (70_reset_and_hazards.md R126). -/
def State.issuing (s : State) (is : List Instr) : State :=
  { s with pending := is.map fun i => .command (encode i) }

/-- The host's next event is a reset or the word of INIT, the two ways out of FINALIZED (40_init.md R64,
43_finalize.md R96). -/
def State.nextIsFreshStart (s : State) : Bool :=
  match s.pending with
  | .reset :: _ => true
  | .command w :: _ => w = 0x0100#16
  | [] => false

end Sys2Proof.Machine
end

