-- ==== Sys2Proof/Certificates/Slice0/Obligations.lean ====
section
/-! DEFINITION. The statements for the provers, from the numbered rules of spec/. Where a statement speaks of `pending`, `responses` or `faultMark`, those fields are the model's own (entries 1, 2 and 3). -/

open Sys2Proof Sys2Proof.Machine

/-! ### Encoding -/

/-- 30_encoding.md R57, R58 and the opcode map R52: a word decodes to a command exactly when it is that command's word,
for every command with every operand. -/
def Obligations.DecodeAndEncodeAgree : Prop :=
  ∀ (w : CmdWord) (i : Instr), decode w = .ok i ↔ encode i = w

/-- 30_encoding.md R58: the decode function over OP = w[15:8] and DATA = w[7:0], and what ILLEGAL performs, in every
PHASE. R58 has the one outcome ILLEGAL: which of the two names an ILLEGAL word gets is the model's choice (entry 11). -/
def Obligations.EveryWordDecodesByOpAndData : Prop :=
  (∀ w : CmdWord, decode w =
    if w.toNat / 256 = 1 ∧ w.toNat % 256 = 0 then .ok .init
    else if w.toNat / 256 = 2 then .ok (.absorb (BitVec.ofNat 8 (w.toNat % 256)))
    else if w.toNat / 256 = 3 ∧ w.toNat % 256 = 0 then .ok .finalize
    else if w.toNat / 256 = 1 ∨ w.toNat / 256 = 3 then
      .error (.reservedData (BitVec.ofNat 8 (w.toNat / 256)) (BitVec.ofNat 8 (w.toNat % 256)))
    else .error (.reservedOp (BitVec.ofNat 8 (w.toNat / 256)))) ∧
  (∀ (s : State) (w : CmdWord) (rest : List HostEvent) (why : Illegal),
    s.pending = .command w :: rest → decode w = .error why →
    step s = .next { s with
      pending := rest
      responses := s.responses ++ [⟨.errIllegal, []⟩]
      faultMark := true })

/-- 30_encoding.md R53, R54 and 60_exceptions.md R102: the words with a reserved OP and those with OP 0x01 or 0x03 and
nonzero DATA answer ERR_ILLEGAL (CODE 0x01) in either phase and change nothing of the engine; 0x0100 and 0x0300 are the
only legal words with OP 0x01 or 0x03. -/
def Obligations.ReservedWordsAnswerIllegal : Prop :=
  (∀ (s : State) (w : CmdWord) (rest : List HostEvent), s.pending = .command w :: rest →
    (w.toNat / 256 = 0 ∨ 4 ≤ w.toNat / 256 ∨ ((w.toNat / 256 = 1 ∨ w.toNat / 256 = 3) ∧ w.toNat % 256 ≠ 0)) →
    step s = .next { s with
      pending := rest
      responses := s.responses ++ [⟨.errIllegal, []⟩]
      faultMark := true }) ∧
  (∀ w : CmdWord, w.toNat / 256 = 1 → ((∃ i, decode w = .ok i) ↔ w = 0x0100#16)) ∧
  (∀ w : CmdWord, w.toNat / 256 = 3 → ((∃ i, decode w = .ok i) ↔ w = 0x0300#16)) ∧
  ResponseCode.errIllegal.value = 0x01#8

/-- 30_encoding.md R52: a word decodes to a command exactly when it has the row's `match` under the row's `mask`; for
ABSORB the operand is DATA. -/
def Obligations.OpcodeRowsSelectTheirWords : Prop :=
  ∀ w : CmdWord,
    (decode w = .ok .init ↔ w &&& 0xFFFF#16 = 0x0100#16) ∧
    ((∃ d, decode w = .ok (.absorb d)) ↔ w &&& 0xFF00#16 = 0x0200#16) ∧
    (∀ d, decode w = .ok (.absorb d) → w = 0x0200#16 ||| d.setWidth 16) ∧
    (decode w = .ok .finalize ↔ w &&& 0xFFFF#16 = 0x0300#16)

/-- Words written out from the map of 30_encoding.md R52 and the rows of vector V17. R52 and V17 say ILLEGAL for the last
four: the names `reservedOp` and `reservedData` are the model's choice (entry 11). -/
def Obligations.SampleWordsDecode : Prop :=
  decode 0b0000000100000000#16 = .ok .init ∧
  decode 0b0000001000000000#16 = .ok (.absorb 0x00#8) ∧
  decode 0b0000001001100001#16 = .ok (.absorb 0x61#8) ∧
  decode 0b0000001011111111#16 = .ok (.absorb 0xFF#8) ∧
  decode 0b0000001100000000#16 = .ok .finalize ∧
  decode 0b0000000000000000#16 = .error (.reservedOp 0x00#8) ∧
  decode 0b0000000111111111#16 = .error (.reservedData 0x01#8 0xFF#8) ∧
  decode 0b0000001100000001#16 = .error (.reservedData 0x03#8 0x01#8) ∧
  decode 0b0000010000000000#16 = .error (.reservedOp 0x04#8)

/-- 30_encoding.md R56: the codes' values; no other code is ever produced. -/
def Obligations.ResponseCodesHaveTheirValues : Prop :=
  ResponseCode.ok.value = 0x00#8 ∧ ResponseCode.errIllegal.value = 0x01#8 ∧
  ResponseCode.errFinalized.value = 0x02#8 ∧ ResponseCode.errLength.value = 0x03#8 ∧
  ∀ c : ResponseCode, c.value.toNat ≤ 3

/-- 30_encoding.md R59: each row of the syntax table gives its word, and the words of INIT, ABSORB and FINALIZE decode to
their commands, the operand a number or an ASCII character; only `.word` can give a word that decodes to no command. The
lines are the model's syntax terms (entry 9). -/
def Obligations.AssembledLinesDecodeToTheirCommands : Prop :=
  (assembleLine .init = some [0x0100#16] ∧ decode 0x0100#16 = .ok .init) ∧
  (∀ n : Nat, n ≤ 255 → assembleLine (.absorb (.num n)) = some [BitVec.ofNat 16 (512 + n)] ∧
    decode (BitVec.ofNat 16 (512 + n)) = .ok (.absorb (BitVec.ofNat 8 n))) ∧
  (∀ c : Char, c.toNat ≤ 127 → assembleLine (.absorb (.chr c)) = some [BitVec.ofNat 16 (512 + c.toNat)] ∧
    decode (BitVec.ofNat 16 (512 + c.toNat)) = .ok (.absorb (BitVec.ofNat 8 c.toNat))) ∧
  (assembleLine .finalize = some [0x0300#16] ∧ decode 0x0300#16 = .ok .finalize) ∧
  (∀ n : Nat, n ≤ 65535 → assembleLine (.word n) = some [BitVec.ofNat 16 n]) ∧
  (∀ (l : AsmLine) (ws : List CmdWord), (∀ n, l ≠ .word n) → assembleLine l = some ws →
    ∀ w ∈ ws, ∃ i, decode w = .ok i)

/-- 30_encoding.md R60, in the list form and in the quoted form (00_scope.md R11: a quoted text is its ASCII bytes): ABSORBS
is its ABSORB lines in order, nothing for none, and HASH is INIT, ABSORBS, FINALIZE. The lines are the model's syntax terms
(entry 9). -/
def Obligations.PseudoInstructionsExpandToCommands : Prop :=
  (∀ bs : List AsmByte, (∀ b ∈ bs, b.wellFormed = true) →
    assembleLine (.absorbs (.list bs)) = assemble (bs.map .absorb) ∧
    assembleLine (.hash (.list bs)) = assemble (.init :: (bs.map .absorb ++ [.finalize]))) ∧
  (∀ cs : List Char, (∀ c ∈ cs, c.toNat ≤ 127) →
    assembleLine (.absorbs (.text cs)) = assemble (cs.map fun c => .absorb (.chr c)) ∧
    assembleLine (.hash (.text cs)) =
      assemble (.init :: ((cs.map fun c => .absorb (.chr c)) ++ [.finalize])))

/-! ### The step -/

/-- A step runs the decoded command: at a waiting word that decodes to `i`, the step is `exec i` once the word is taken
from the host's list (20_memory.md R44); the same for a word placed by `withFetchWord` (entry 1). -/
def Obligations.StepRunsTheDecodedCommand : Prop :=
  (∀ (s : State) (w : CmdWord) (rest : List HostEvent) (i : Instr),
    s.pending = .command w :: rest → decode w = .ok i → step s = exec i { s with pending := rest }) ∧
  (∀ (s : State) (nbits w : Nat) (i : Instr),
    decodeTableWord nbits w = some i → step (s.withFetchWord nbits w) = exec i s)

/-- 10_state.md R33 (section 4), 60_exceptions.md R113 (section 4): with no event waiting nothing changes. That a step is taken at all is the
model's choice (entry 4). -/
def Obligations.IdleStepChangesNothing : Prop :=
  ∀ s : State, s.pending = [] → step s = .next s

/-- The engine never stops (60_exceptions.md R101, R106, R108): every step from every state answers a next state, one event
shorter, and every command does. That a step with no event waiting answers a next state too is the model's choice (entry
4), and so is that there is no fault to stop with (entry 5). -/
def Obligations.EveryStepAnswersNext : Prop :=
  (∀ s : State, ∃ t : State, step s = .next t ∧ t.pending = s.pending.tail) ∧
  (∀ (i : Instr) (s : State), ∃ t : State, exec i s = .next t ∧ t.pending = s.pending)

/-- 30_encoding.md R55: a command adds exactly one response: 20 bytes, the accumulator big-endian, for a FINALIZE whose
CODE is OK, and no payload for every other response. -/
def Obligations.EveryCommandAnswersOnce : Prop :=
  ∀ (s : State) (w : CmdWord) (rest : List HostEvent), s.pending = .command w :: rest →
    ∃ (t : State) (r : Response), step s = .next t ∧ t.pending = rest ∧ t.responses = s.responses ++ [r] ∧
      (if w = 0x0300#16 ∧ r.code = .ok then r.payload = digestBytes t.engine.h ∧ r.payload.length = 20
       else r.payload = [])

/-- 70_reset_and_hazards.md R126, 20_memory.md R44: a run over a finite word sequence, from any state, shows one response per
word, in order: k steps have taken the first k words and added exactly the first k responses. The list of words and the
record of responses are the model's (entries 1 and 2). -/
def Obligations.RunShowsOneResponsePerWord : Prop :=
  ∀ (ws : List CmdWord) (s : State), s.pending = ws.map .command →
    ∃ rs : List Response, rs.length = ws.length ∧
      ∀ k : Nat, k ≤ ws.length → ∃ t : State, Host.Core.run core k s = .next t ∧
        t.pending = (ws.drop k).map .command ∧ t.responses = s.responses ++ rs.take k

/-- 20_memory.md R44, 70_reset_and_hazards.md R126: commands the host has not yet issued have no effect on the ones before
them. -/
def Obligations.LaterCommandsDoNotMatter : Prop :=
  ∀ (n : Nat) (s t : State) (later : List HostEvent), n ≤ s.pending.length →
    Host.Core.run core n s = .next t →
    Host.Core.run core n { s with pending := s.pending ++ later } = .next { t with pending := t.pending ++ later }

/-! ### INIT and reset -/

/-- 40_init.md R61, R63: INIT from any state, its word, the words 0x0101 to 0x01FF, and INIT twice in a row. R62 marks the
five values of H "from general knowledge, not in source". -/
def Obligations.InitGivesTheFreshEngine : Prop :=
  (∀ s : State, exec .init s = .next { s with
    engine := {
      h := ⟨0x67452301#32, 0xEFCDAB89#32, 0x98BADCFE#32, 0x10325476#32, 0xC3D2E1F0#32⟩
      buf := Vector.replicate 64 0x00#8
      cur := 0#6
      blkcnt := 0#55
      phase := .active }
    responses := s.responses ++ [⟨.ok, []⟩] }) ∧
  encode .init = 0x0100#16 ∧
  (∀ s t u : State, exec .init s = .next t → exec .init t = .next u → u.engine = t.engine) ∧
  (∀ (s : State) (d : Byte) (rest : List HostEvent), d ≠ 0x00#8 → s.pending = .command (0x01#8 ++ d) :: rest →
    step s = .next { s with
      pending := rest
      responses := s.responses ++ [⟨.errIllegal, []⟩]
      faultMark := true })

/-- 70_reset_and_hazards.md R116: a reset gives the state of 10_state.md R31, the state INIT produces, and no response. R62
marks the five values of H "from general knowledge, not in source". That the reset is an event of the host's list, and that
the fault mark stays, is the model's choice (entries 1, 3 and 8). -/
def Obligations.ResetGivesTheFreshEngine : Prop :=
  (∀ (s : State) (rest : List HostEvent), s.pending = .reset :: rest →
    step s = .next { s with
      engine := {
        h := ⟨0x67452301#32, 0xEFCDAB89#32, 0x98BADCFE#32, 0x10325476#32, 0xC3D2E1F0#32⟩
        buf := Vector.replicate 64 0x00#8
        cur := 0#6
        blkcnt := 0#55
        phase := .active }
      pending := rest }) ∧
  (∀ s t : State, exec .init s = .next t → t.engine = State.reset.engine)

/-- 10_state.md R31: the reset values. R62 marks the five values of H "from general knowledge, not in source". The other three fields of State.reset are the model's choice (entries 1, 2 and 3). -/
def Obligations.ResetValues : Prop :=
  State.reset.engine.h = ⟨0x67452301#32, 0xEFCDAB89#32, 0x98BADCFE#32, 0x10325476#32, 0xC3D2E1F0#32⟩ ∧
  (∀ (j : Nat) (hj : j < 64), State.reset.engine.buf[j] = 0x00#8) ∧
  State.reset.engine.cur = 0#6 ∧ State.reset.engine.blkcnt = 0#55 ∧ State.reset.engine.phase = .active

/-- 40_init.md R64, 43_finalize.md R96: a step that leaves FINALIZED is a reset or the word of INIT, and each of those two
leaves it. -/
def Obligations.OnlyInitOrResetLeavesFinalized : Prop :=
  ∀ s t : State, s.engine.phase = .finalized → step s = .next t →
    (t.engine.phase = .active ↔ s.nextIsFreshStart = true)

/-! ### ABSORB -/

/-- 41_absorb.md R66: PHASE first, then length, and only then the absorb step; an illegal word never reaches these checks. -/
def Obligations.AbsorbChecksThenStores : Prop :=
  (∀ (s : State) (w : CmdWord) (rest : List HostEvent) (why : Illegal), s.pending = .command w :: rest →
    decode w = .error why → ∃ t : State, step s = .next t ∧ t.responses = s.responses ++ [⟨.errIllegal, []⟩]) ∧
  ∀ (d : Byte) (s : State),
    (s.engine.phase = .finalized →
      exec (.absorb d) s = .next { s with responses := s.responses ++ [⟨.errFinalized, []⟩], faultMark := true }) ∧
    (s.engine.phase = .active → s.engine.blkcnt.toNat = 2 ^ 55 - 1 ∧ s.engine.cur.toNat = 63 →
      exec (.absorb d) s = .next { s with responses := s.responses ++ [⟨.errLength, []⟩], faultMark := true }) ∧
    (s.engine.phase = .active → ¬(s.engine.blkcnt.toNat = 2 ^ 55 - 1 ∧ s.engine.cur.toNat = 63) →
      exec (.absorb d) s = .next { s with
        engine := s.engine.absorbStep d
        responses := s.responses ++ [⟨.ok, []⟩] })

/-- 41_absorb.md R68, R69: the absorb step at every cursor; a block that fills is compressed, counted modulo 2^55 and
cleared, and an accepted ABSORB never makes the count wrap. -/
def Obligations.AbsorbStepStoresAndCompresses : Prop :=
  (∀ (e : Engine) (d : Byte), e.cur.toNat < 63 →
    e.absorbStep d = { e with
      buf := e.buf.set e.cur.toNat d e.cur.isLt
      cur := BitVec.ofNat 6 (e.cur.toNat + 1) }) ∧
  (∀ (e : Engine) (d : Byte), e.cur.toNat = 63 →
    e.absorbStep d = {
      h := compress e.h (e.buf.set 63 d)
      buf := Vector.replicate 64 0x00#8
      cur := 0#6
      blkcnt := BitVec.ofNat 55 ((e.blkcnt.toNat + 1) % 2 ^ 55)
      phase := e.phase }) ∧
  (∀ (d : Byte) (s t : State), exec (.absorb d) s = .next t → s.engine.blkcnt.toNat ≤ t.engine.blkcnt.toNat)

/-- ABSORB below the block end (41_absorb.md R65, R72): exactly BUF[CUR] and CUR change, at every block count. -/
def Obligations.AbsorbBelowTheBlockEnd : Prop :=
  ∀ (d : Byte) (s : State), s.engine.phase = .active → s.engine.cur.toNat < 63 →
    exec (.absorb d) s = .next { s with
      engine := { s.engine with
        buf := s.engine.buf.set s.engine.cur.toNat d s.engine.cur.isLt
        cur := BitVec.ofNat 6 (s.engine.cur.toNat + 1) }
      responses := s.responses ++ [⟨.ok, []⟩] }

/-- ABSORB at the block end (41_absorb.md R65, R72): COMPRESS within the same command. -/
def Obligations.AbsorbFillingABlock : Prop :=
  ∀ (d : Byte) (s : State), s.engine.phase = .active → s.engine.cur.toNat = 63 →
    s.engine.blkcnt.toNat < 2 ^ 55 - 1 →
    exec (.absorb d) s = .next { s with
      engine := {
        h := compress s.engine.h (s.engine.buf.set 63 d)
        buf := Vector.replicate 64 0x00#8
        cur := 0#6
        blkcnt := BitVec.ofNat 55 (s.engine.blkcnt.toNat + 1)
        phase := .active }
      responses := s.responses ++ [⟨.ok, []⟩] }

/-- ABSORB's frame (41_absorb.md R65, R67): PHASE and the host's list never change; below the block end H, BLKCNT and every
buffer byte but BUF[CUR] stay; with an error the whole engine stays. -/
def Obligations.AbsorbFrame : Prop :=
  ∀ (d : Byte) (s t : State), exec (.absorb d) s = .next t →
    t.engine.phase = s.engine.phase ∧ t.pending = s.pending ∧
    (s.engine.cur.toNat < 63 →
      t.engine.h = s.engine.h ∧ t.engine.blkcnt = s.engine.blkcnt ∧
      ∀ (j : Nat) (hj : j < 64), j ≠ s.engine.cur.toNat → t.engine.buf[j] = s.engine.buf[j]) ∧
    ∃ r : Response, t.responses = s.responses ++ [r] ∧ r.payload = [] ∧
      (r.code ≠ .ok → t.engine = s.engine ∧ t.faultMark = true) ∧ (r.code = .ok → t.faultMark = s.faultMark)

/-- 10_state.md R18, 41_absorb.md R67: an accepted ABSORB makes T one more; T never passes 2^61 - 1; and ABSORB answers
ERR_LENGTH exactly at T = 2^61 - 1. -/
def Obligations.AbsorbCountsOneByte : Prop :=
  ∀ (d : Byte) (s t : State), s.engine.phase = .active → exec (.absorb d) s = .next t →
    s.engine.totalLength ≤ 2 ^ 61 - 1 ∧
    (s.engine.totalLength < 2 ^ 61 - 1 → t.engine.totalLength = s.engine.totalLength + 1 ∧
      t.responses = s.responses ++ [⟨.ok, []⟩]) ∧
    (s.engine.totalLength = 2 ^ 61 - 1 → t.engine = s.engine ∧ t.responses = s.responses ++ [⟨.errLength, []⟩])

/-- 41_absorb.md R67: an accepted ABSORB extends the message the engine holds by exactly its byte, across block ends too. -/
def Obligations.AbsorbExtendsTheMessage : Prop :=
  ∀ (d : Byte) (s : State) (m : List Byte), s.engine.Holds m → m.length < 2 ^ 61 - 1 →
    ∃ t : State, exec (.absorb d) s = .next t ∧ t.engine.Holds (m ++ [d]) ∧
      t.responses = s.responses ++ [⟨.ok, []⟩] ∧ t.pending = s.pending ∧ t.faultMark = s.faultMark

/-- 10_state.md R13, R18, R20: a message fixes the engine that holds it: two engines with zero tails that hold one message
are equal. -/
def Obligations.TheMessageFixesTheEngine : Prop :=
  ∀ (e f : Engine) (m : List Byte), e.Holds m → f.Holds m → e.zeroTail → f.zeroTail → e = f

/-- 41_absorb.md R70, R71: from any state, absorbing m₁ and then m₂ ends in the very state that absorbing m₁ ++ m₂ gives,
and while the length allows it that state is the absorb step folded over all the bytes, each answered OK. The runs over the
host's list and the record of responses are the model's (entries 1 and 2). -/
def Obligations.ChunkingDoesNotMatter : Prop :=
  ∀ (m₁ m₂ : List Byte) (s : State), ∃ t u : State,
    Host.Core.run core m₁.length (s.issuing (absorbsCommands m₁)) = .next t ∧
    Host.Core.run core m₂.length (t.issuing (absorbsCommands m₂)) = .next u ∧
    Host.Core.run core (m₁ ++ m₂).length (s.issuing (absorbsCommands (m₁ ++ m₂))) = .next u ∧
    (s.engine.phase = .active → s.engine.totalLength + (m₁ ++ m₂).length < 2 ^ 61 →
      u.engine = (m₁ ++ m₂).foldl Engine.absorbStep s.engine ∧
      u.responses = s.responses ++ List.replicate (m₁ ++ m₂).length ⟨.ok, []⟩)

/-! ### COMPRESS -/

/-- 42_compress.md R85: the result is that of 80 words W with R74 and R75, and of the working words with R77 and R82 under
the phases of R78, added back by R83. R77 marks its pairing, H[0] to `a` and so on, "from general knowledge, not in
source". -/
def Obligations.CompressFollowsItsPseudocode : Prop :=
  ∀ (h : Acc) (block : Block), ∃ (W : Nat → Word) (a b c d e f k : Nat → Word),
    (∀ (i : Nat) (hi : i < 16), W i = be32 (block[4 * i]'(by omega)) (block[4 * i + 1]'(by omega))
      (block[4 * i + 2]'(by omega)) (block[4 * i + 3]'(by omega))) ∧
    (∀ i : Nat, 16 ≤ i → i < 80 →
      W i = BitVec.rotateLeft (W (i - 3) ^^^ W (i - 8) ^^^ W (i - 14) ^^^ W (i - 16)) 1) ∧
    (a 0 = h.h0 ∧ b 0 = h.h1 ∧ c 0 = h.h2 ∧ d 0 = h.h3 ∧ e 0 = h.h4) ∧
    (∀ t : Nat, t < 80 →
      (if t ≤ 19 then f t = (b t &&& c t) ||| (~~~(b t) &&& d t) ∧ k t = 0x5A827999#32
       else if t ≤ 39 then f t = b t ^^^ c t ^^^ d t ∧ k t = 0x6ED9EBA1#32
       else if t ≤ 59 then f t = (b t &&& c t) ||| (b t &&& d t) ||| (c t &&& d t) ∧ k t = 0x8F1BBCDC#32
       else f t = b t ^^^ c t ^^^ d t ∧ k t = 0xCA62C1D6#32) ∧
      a (t + 1) = BitVec.rotateLeft (a t) 5 + f t + e t + k t + W t ∧
      e (t + 1) = d t ∧ d (t + 1) = c t ∧ c (t + 1) = BitVec.rotateLeft (b t) 30 ∧ b (t + 1) = a t) ∧
    compress h block = ⟨h.h0 + a 80, h.h1 + b 80, h.h2 + c 80, h.h3 + d 80, h.h4 + e 80⟩

/-- 42_compress.md R74, R75: the schedule has 80 words, the first 16 the block's big-endian words, each later one by the
recurrence. -/
def Obligations.ScheduleFollowsTheRecurrence : Prop :=
  ∀ block : Block, (schedule block).length = 80 ∧
    (∀ (i : Nat) (hi : i < 16), (schedule block)[i]? = some (be32 (block[4 * i]'(by omega)) (block[4 * i + 1]'(by omega))
      (block[4 * i + 2]'(by omega)) (block[4 * i + 3]'(by omega)))) ∧
    (∀ i : Nat, 16 ≤ i → i < 80 → ∃ w3 w8 w14 w16 : Word,
      (schedule block)[i - 3]? = some w3 ∧ (schedule block)[i - 8]? = some w8 ∧
      (schedule block)[i - 14]? = some w14 ∧ (schedule block)[i - 16]? = some w16 ∧
      (schedule block)[i]? = some (BitVec.rotateLeft (w3 ^^^ w8 ^^^ w14 ^^^ w16) 1))

/-- 42_compress.md R79, R80, R81: the formulas on the rounds of each phase, bit by bit (Ch chooses, Parity adds modulo 2, Maj
is the majority), the two Parity phases alike but for K, and the rules' four examples, which the spec marks "derived: from
this rule's formula". -/
def Obligations.RoundFunctionsActBitwise : Prop :=
  (∀ (t : Nat) (b c d : Word) (i : Nat), t < 80 → i < 32 →
    (roundF t b c d).getLsbD i =
      if t < 20 then (if b.getLsbD i then c.getLsbD i else d.getLsbD i)
      else if 40 ≤ t ∧ t < 60 then
        decide (2 ≤ (b.getLsbD i).toNat + (c.getLsbD i).toNat + (d.getLsbD i).toNat)
      else decide (((b.getLsbD i).toNat + (c.getLsbD i).toNat + (d.getLsbD i).toNat) % 2 = 1)) ∧
  (∀ (t : Nat) (b c d : Word),
    (t ≤ 19 → roundF t b c d = (b &&& c) ||| (~~~b &&& d)) ∧
    (20 ≤ t ∧ t ≤ 39 ∨ 60 ≤ t ∧ t ≤ 79 → roundF t b c d = b ^^^ c ^^^ d) ∧
    (40 ≤ t ∧ t ≤ 59 → roundF t b c d = (b &&& c) ||| (b &&& d) ||| (c &&& d))) ∧
  (∀ t t' : Nat, 20 ≤ t ∧ t ≤ 39 → 60 ≤ t' ∧ t' ≤ 79 → roundF t = roundF t' ∧ roundK t ≠ roundK t') ∧
  roundF 0 0xFFFFFFFF#32 0x00000000#32 0xFFFFFFFF#32 = 0x00000000#32 ∧
  roundF 19 0x00000000#32 0xFFFFFFFF#32 0x12345678#32 = 0x12345678#32 ∧
  roundF 20 0x00000000#32 0xFFFFFFFF#32 0x12345678#32 = 0xEDCBA987#32 ∧
  roundF 40 0xF0F0F0F0#32 0xFF00FF00#32 0x0FF00FF0#32 = 0xFFF0FFF0#32

/-- 00_scope.md R9, 42_compress.md R86: `rotl` for 0 < n < 32 moves bit i to bit (i + n) mod 32 and loses none. -/
def Obligations.RotationLosesNoBits : Prop :=
  ∀ (x : Word) (n i : Nat), 0 < n → n < 32 → i < 32 →
    (rotl x n).getLsbD ((i + n) % 32) = x.getLsbD i ∧ rotl (rotl x n) (32 - n) = x

/-- 42_compress.md R76: COMPRESS over a 16-word window, indexed modulo 16, is COMPRESS over the 80 stored words. -/
def Obligations.WindowedScheduleCompressesAlike : Prop :=
  ∀ (h : Acc) (block : Block), compressWindow h block = compress h block

/-- 20_memory.md R36: COMPRESS reads the buffer as big-endian words, the first byte absorbed being bits 31:24 of W[0]. -/
def Obligations.FirstByteIsTheTopOfTheFirstWord : Prop :=
  ∀ block : Block, ∃ w : Word, (schedule block)[0]? = some w ∧ w.extractLsb' 24 8 = block[0] ∧
    w.extractLsb' 16 8 = block[1] ∧ w.extractLsb' 8 8 = block[2] ∧ w.extractLsb' 0 8 = block[3]

/-! ### FINALIZE -/

/-- 43_finalize.md R89: the pseudocode of FINALIZE, its word, and the words 0x0301 to 0x03FF. 20_memory.md R38 marks the order
H[0] first, which R89 writes out, "from general knowledge, not in source". -/
def Obligations.FinalizePadsThenAnswersTheDigest : Prop :=
  (∀ (s : State) (e : Engine), s.engine.phase = .active →
    e = (padBytes s.engine.cur
      (BitVec.ofNat 64 (512 * s.engine.blkcnt.toNat + 8 * s.engine.cur.toNat))).foldl Engine.absorbStep s.engine →
    exec .finalize s = .next { s with
      engine := { e with phase := .finalized }
      responses := s.responses ++ [⟨.ok, bytesBE e.h.h0 4 ++ bytesBE e.h.h1 4 ++ bytesBE e.h.h2 4
        ++ bytesBE e.h.h3 4 ++ bytesBE e.h.h4 4⟩] }) ∧
  (∀ s : State, s.engine.phase = .finalized →
    exec .finalize s = .next { s with responses := s.responses ++ [⟨.errFinalized, []⟩], faultMark := true }) ∧
  encode .finalize = 0x0300#16 ∧
  (∀ (s : State) (d : Byte) (rest : List HostEvent), d ≠ 0x00#8 → s.pending = .command (0x03#8 ++ d) :: rest →
    step s = .next { s with
      pending := rest
      responses := s.responses ++ [⟨.errIllegal, []⟩]
      faultMark := true })

/-- 43_finalize.md R90, 10_state.md R18: L is exact, `512 * BLKCNT + 8 * CUR` = 8 T, at most 2^64 - 8. -/
def Obligations.LengthFieldIsExact : Prop :=
  ∀ e : Engine, e.messageBits.toNat = 512 * e.blkcnt.toNat + 8 * e.cur.toNat ∧
    e.messageBits.toNat = 8 * e.totalLength ∧ e.messageBits.toNat ≤ 2 ^ 64 - 8

/-- 43_finalize.md R91, 20_memory.md R37: 0x80, the least number of zero bytes that brings the length to 56 modulo 64, and L as
8 bytes with the most significant first, which end on a block boundary. R91 marks the bounds of 9 and 72 bytes "derived: from
k's range". -/
def Obligations.PaddingEndsOnABlockBoundary : Prop :=
  ∀ (c : BitVec 6) (l : BitVec 64), ∃ k : Nat, (k : Int) = (55 - (c.toNat : Int)) % 64 ∧
    (c.toNat + 1 + k) % 64 = 56 ∧ (∀ k' : Nat, k' < k → (c.toNat + 1 + k') % 64 ≠ 56) ∧
    padBytes c l = 0x80#8 :: (List.replicate k 0x00#8 ++
      [l.extractLsb' 56 8, l.extractLsb' 48 8, l.extractLsb' 40 8, l.extractLsb' 32 8,
       l.extractLsb' 24 8, l.extractLsb' 16 8, l.extractLsb' 8 8, l.extractLsb' 0 8]) ∧
    (c.toNat + (padBytes c l).length) % 64 = 0 ∧ 9 ≤ (padBytes c l).length ∧ (padBytes c l).length ≤ 72

/-- 43_finalize.md R93, R94 and 10_state.md R29: PAD is 64 - c bytes and one COMPRESS for c of 55 or less, else 128 - c bytes
and two; BLKCNT counts them modulo 2^55; the buffer is empty after it and PHASE is still ACTIVE. -/
def Obligations.PadCompressesOnceOrTwice : Prop :=
  ∀ e : Engine,
    (padBytes e.cur e.messageBits).length = (if e.cur.toNat ≤ 55 then 64 else 128) - e.cur.toNat ∧
    e.pad.blkcnt.toNat = (e.blkcnt.toNat + if e.cur.toNat ≤ 55 then 1 else 2) % 2 ^ 55 ∧
    e.pad.cur = 0#6 ∧ (∀ (j : Nat) (hj : j < 64), e.pad.buf[j] = 0x00#8) ∧ e.pad.phase = e.phase

/-- 43_finalize.md R94, R99 for CUR of 55 or less: one COMPRESS of the block BUF[0..c-1], 0x80, zeros, L at bytes 56 to 63. -/
def Obligations.FinalizeWithOneBlock : Prop :=
  ∀ (s : State) (l : BitVec 64) (h' : Acc), s.engine.phase = .active → s.engine.cur.toNat ≤ 55 →
    l.toNat = 512 * s.engine.blkcnt.toNat + 8 * s.engine.cur.toNat →
    h' = compress s.engine.h (Vector.ofFn fun j : Fin 64 =>
      if j.val < s.engine.cur.toNat then s.engine.buf[j.val]
      else if j.val = s.engine.cur.toNat then 0x80#8
      else if j.val < 56 then 0x00#8
      else l.extractLsb' (8 * (63 - j.val)) 8) →
    exec .finalize s = .next { s with
      engine := {
        h := h'
        buf := Vector.replicate 64 0x00#8
        cur := 0#6
        blkcnt := s.engine.blkcnt + 1#55
        phase := .finalized }
      responses := s.responses ++ [⟨.ok, digestBytes h'⟩] }

/-- 43_finalize.md R94, R99 for CUR of 56 or more: two COMPRESS, of the block completed by 0x80 and zeros, and of 56 zeros and
L. -/
def Obligations.FinalizeWithTwoBlocks : Prop :=
  ∀ (s : State) (l : BitVec 64) (h' h'' : Acc), s.engine.phase = .active → 56 ≤ s.engine.cur.toNat →
    l.toNat = 512 * s.engine.blkcnt.toNat + 8 * s.engine.cur.toNat →
    h' = compress s.engine.h (Vector.ofFn fun j : Fin 64 =>
      if j.val < s.engine.cur.toNat then s.engine.buf[j.val]
      else if j.val = s.engine.cur.toNat then 0x80#8
      else 0x00#8) →
    h'' = compress h' (Vector.ofFn fun j : Fin 64 =>
      if j.val < 56 then 0x00#8 else l.extractLsb' (8 * (63 - j.val)) 8) →
    exec .finalize s = .next { s with
      engine := {
        h := h''
        buf := Vector.replicate 64 0x00#8
        cur := 0#6
        blkcnt := s.engine.blkcnt + 2#55
        phase := .finalized }
      responses := s.responses ++ [⟨.ok, digestBytes h''⟩] }

/-- 43_finalize.md R95, 20_memory.md R38: the digest of a FINALIZE on an ACTIVE engine is 20 bytes, byte 4i + j being
H[i][31 - 8j : 24 - 8j] of the accumulator after PAD, which the engine keeps. R38 marks the order H[0] first "from general
knowledge, not in source". -/
def Obligations.DigestIsTheAccumulatorBigEndian : Prop :=
  ∀ s : State, s.engine.phase = .active →
    ∃ (t : State) (digest : List Byte), exec .finalize s = .next t ∧
      t.responses = s.responses ++ [⟨.ok, digest⟩] ∧ digest.length = 20 ∧ t.engine.h = s.engine.pad.h ∧
      ∀ i j : Nat, i < 5 → j < 4 →
        digest[4 * i + j]? = ([t.engine.h.h0, t.engine.h.h1, t.engine.h.h2, t.engine.h.h3, t.engine.h.h4][i]?).map
          (fun w => w.extractLsb' (24 - 8 * j) 8)

/-- 00_scope.md R2, R12 and 43_finalize.md R89 to R95: FINALIZE on an engine that holds a message answers that message's SHA-1
digest, the padded message compressed block by block. -/
def Obligations.FinalizeAnswersTheHashOfTheMessage : Prop :=
  ∀ (s : State) (m : List Byte), s.engine.Holds m →
    ∃ t : State, exec .finalize s = .next t ∧ t.responses = s.responses ++ [⟨.ok, hashMessage m⟩] ∧
      t.engine.phase = .finalized ∧ t.pending = s.pending ∧ t.faultMark = s.faultMark

/-- INIT and reset give an engine that holds the empty message (40_init.md R61, 43_finalize.md R98). -/
def Obligations.FreshEngineHoldsTheEmptyMessage : Prop :=
  State.reset.engine.Holds [] ∧ ∀ s : State, ∃ t : State, exec .init s = .next t ∧ t.engine.Holds []

/-- 30_encoding.md R60 `HASH m`, 70_reset_and_hazards.md R119: from any state, the words of INIT, one ABSORB per byte of any
message of fewer than 2^61 bytes, and FINALIZE answer OK to each and last the message's SHA-1 digest. -/
def Obligations.HashCommandsAnswerTheHashOfTheMessage : Prop :=
  ∀ (m : List Byte) (s : State) (rest : List HostEvent), m.length < 2 ^ 61 →
    s.pending = (hashCommands m).map (fun i => .command (encode i)) ++ rest →
    ∃ t : State, Host.Core.run core (m.length + 2) s = .next t ∧ t.pending = rest ∧
      t.responses = s.responses ++ (List.replicate (m.length + 1) ⟨.ok, []⟩ ++ [⟨.ok, hashMessage m⟩]) ∧
      t.engine.phase = .finalized ∧ t.faultMark = s.faultMark

/-! ### Errors and lifecycle -/

/-- 60_exceptions.md R103, 43_finalize.md R97: ABSORB and FINALIZE on a finalized engine answer ERR_FINALIZED (CODE 0x02) and
change nothing of the engine. -/
def Obligations.UseAfterFinalizeAnswersErrFinalized : Prop :=
  ResponseCode.errFinalized.value = 0x02#8 ∧
  ∀ s : State, s.engine.phase = .finalized →
    (∀ d : Byte, exec (.absorb d) s =
      .next { s with responses := s.responses ++ [⟨.errFinalized, []⟩], faultMark := true }) ∧
    exec .finalize s = .next { s with responses := s.responses ++ [⟨.errFinalized, []⟩], faultMark := true }

/-- 60_exceptions.md R104: at 2^61 - 1 bytes ABSORB answers ERR_LENGTH (CODE 0x03) and changes nothing of the engine, and a
later FINALIZE is still accepted and gives the digest of the bytes absorbed. -/
def Obligations.LengthLimitAnswersErrLength : Prop :=
  ResponseCode.errLength.value = 0x03#8 ∧
  ∀ (d : Byte) (s : State), s.engine.phase = .active → s.engine.blkcnt.toNat = 2 ^ 55 - 1 → s.engine.cur.toNat = 63 →
    ∃ t u : State, exec (.absorb d) s = .next t ∧ t.engine = s.engine ∧ t.pending = s.pending ∧
      t.responses = s.responses ++ [⟨.errLength, []⟩] ∧ t.faultMark = true ∧
      exec .finalize t = .next u ∧
      ∀ m : List Byte, s.engine.Holds m → m.length = 2 ^ 61 - 1 ∧ u.responses = t.responses ++ [⟨.ok, hashMessage m⟩]

/-- 60_exceptions.md R105: a command answers the first error that applies: ERR_ILLEGAL from the word alone, ERR_FINALIZED from
PHASE, ERR_LENGTH from BLKCNT and CUR for ABSORB only; else OK. -/
def Obligations.FirstErrorThatAppliesIsAnswered : Prop :=
  ∀ (s : State) (w : CmdWord) (rest : List HostEvent), s.pending = .command w :: rest →
    ∃ (t : State) (r : Response), step s = .next t ∧ t.responses = s.responses ++ [r] ∧
      r.code =
        if ¬(w.toNat / 256 = 2 ∨ w.toNat = 0x0100 ∨ w.toNat = 0x0300) then .errIllegal
        else if w.toNat ≠ 0x0100 ∧ s.engine.phase = .finalized then .errFinalized
        else if w.toNat / 256 = 2 ∧ s.engine.blkcnt.toNat = 2 ^ 55 - 1 ∧ s.engine.cur.toNat = 63 then .errLength
        else .ok

/-- 60_exceptions.md R106: an error ends the command with (code, []) and leaves every element of the engine's state exactly as
it was. -/
def Obligations.ErrorsLeaveTheEngineUnchanged : Prop :=
  ∀ (s t : State) (r : Response), step s = .next t → t.responses = s.responses ++ [r] → r.code ≠ .ok →
    r.payload = [] ∧ t.engine = s.engine

/-- 60_exceptions.md R115: every response that is not OK sets the fault mark, no step clears it, and nothing else sets it; so a
run that ends with no fault recorded had only OK responses. That a reset event does not clear it either is the model's
reading of R115's "no later step clears" (entry 3). -/
def Obligations.FaultMarkRecordsEveryError : Prop :=
  (∀ (s t : State), step s = .next t →
    (s.faultMark = true → t.faultMark = true) ∧
    (∀ r : Response, t.responses = s.responses ++ [r] → r.code ≠ .ok → t.faultMark = true) ∧
    (t.faultMark = true → s.faultMark = true ∨ ∃ r : Response, t.responses = s.responses ++ [r] ∧ r.code ≠ .ok)) ∧
  (∀ (n : Nat) (s t : State), Host.Core.run core n s = .next t → t.noFaultRecorded = true →
    s.noFaultRecorded = true ∧ ∃ rs : List Response, t.responses = s.responses ++ rs ∧ ∀ r ∈ rs, r.code = .ok)

/-- 70_reset_and_hazards.md R119: the lifecycle table, for every word that decodes, with T of 10_state.md R18; an illegal word
leaves PHASE unchanged and answers ERR_ILLEGAL. -/
def Obligations.LifecycleFollowsTheTable : Prop :=
  ∀ (s : State) (w : CmdWord) (rest : List HostEvent), s.pending = .command w :: rest →
    ∃ (t : State) (r : Response), step s = .next t ∧ t.responses = s.responses ++ [r] ∧
      (∀ why, decode w = .error why → t.engine.phase = s.engine.phase ∧ r.code = .errIllegal) ∧
      (decode w = .ok .init → t.engine.phase = .active ∧ r.code = .ok) ∧
      (∀ d, decode w = .ok (.absorb d) → s.engine.phase = .active → s.engine.totalLength < 2 ^ 61 - 1 →
        t.engine.phase = .active ∧ r.code = .ok) ∧
      (∀ d, decode w = .ok (.absorb d) → s.engine.phase = .active → s.engine.totalLength = 2 ^ 61 - 1 →
        t.engine = s.engine ∧ r.code = .errLength) ∧
      (decode w = .ok .finalize → s.engine.phase = .active →
        t.engine.phase = .finalized ∧ r.code = .ok ∧ r.payload.length = 20) ∧
      (∀ d, decode w = .ok (.absorb d) → s.engine.phase = .finalized →
        t.engine = s.engine ∧ r.code = .errFinalized) ∧
      (decode w = .ok .finalize → s.engine.phase = .finalized → t.engine = s.engine ∧ r.code = .errFinalized)

/-- 60_exceptions.md R108: after ERR_LENGTH every further ABSORB answers ERR_LENGTH, and after ERR_FINALIZED every further
ABSORB and FINALIZE answers ERR_FINALIZED, each performed on the unchanged engine. -/
def Obligations.RefusedCommandsStayRefused : Prop :=
  ∀ (i i' : Instr) (s t : State) (code : ResponseCode), exec i s = .next t →
    t.responses = s.responses ++ [⟨code, []⟩] → code ≠ .ok →
    (i' = i ∨ (∃ d d', i = .absorb d ∧ i' = .absorb d') ∨ (code = .errFinalized ∧ i' ≠ .init)) →
    ∃ u : State, exec i' t = .next u ∧ u.engine = s.engine ∧ u.responses = t.responses ++ [⟨code, []⟩]

/-! ### Invariants and what cannot be told apart -/

/-- The invariant of Sys2Proof/Safety.lean holds after reset (10_state.md R30, R31). -/
def Obligations.ResetMeetsTheInvariant : Prop := State.reset.Inv

/-- Every step keeps the invariant (10_state.md R20, R29, R30; 30_encoding.md R55; 60_exceptions.md R115), from every state that
meets it. -/
def Obligations.StepKeepsTheInvariant : Prop :=
  ∀ s t : State, s.Inv → step s = .next t → t.Inv

/-- 10_state.md R20, R28, R29: no response depends on a buffer byte at or after the cursor, nor, once the engine is finalized,
on anything but PHASE; two machines the same for the host stay so, step by step. -/
def Obligations.HiddenStateDoesNotShow : Prop :=
  ∀ s s' t t' : State, s.engine.SameForHost s'.engine → s.pending = s'.pending → s.responses = s'.responses →
    s.faultMark = s'.faultMark → step s = .next t → step s' = .next t' →
    t.engine.SameForHost t'.engine ∧ t.pending = t'.pending ∧ t.responses = t'.responses ∧ t.faultMark = t'.faultMark

/-- 60_exceptions.md R114: a command to one engine never changes another, and the one it is for takes its own step. -/
def Obligations.EnginesShareNoState : Prop :=
  ∀ (engines : List State) (k j : Nat),
    (j ≠ k → (systemStep engines k)[j]? = engines[j]?) ∧
    (∀ s t : State, engines[k]? = some s → step s = .next t → (systemStep engines k)[k]? = some t)
end

