-- ==== Sys2Proof/Laws/Compress.lean ====
section
/-! SUPPORT. What the parts of COMPRESS do, said once each: rotation, the words of a block, the schedule, the rounds. -/

namespace Sys2Proof.Machine

/-! ### Rotation -/

theorem rotl_eq_rotateLeft (x : Word) (n : Nat) (h : n < 32) : rotl x n = x.rotateLeft n := by
  rw [rotl, BitVec.rotateLeft_def, Nat.mod_eq_of_lt h]

theorem rotl_getLsbD (x : Word) (n i : Nat) (h0 : 0 < n) (hn : n < 32) (hi : i < 32) :
    (rotl x n).getLsbD i = x.getLsbD ((i + 32 - n) % 32) := by
  simp only [rotl, BitVec.getLsbD_or, BitVec.getLsbD_shiftLeft, BitVec.getLsbD_ushiftRight]
  by_cases h : i < n
  · have e : (i + 32 - n) % 32 = 32 - n + i := by rw [Nat.mod_eq_of_lt] <;> omega
    simp [h, e]
  · have e : (i + 32 - n) % 32 = i - n := by omega
    have : 32 ≤ 32 - n + i := by omega
    simp [h, e, hi, this]

/-! ### The words of a block -/

theorem wordsBE_getElem? (bs : List Byte) (i : Nat) (h : 4 * i + 3 < bs.length) :
    (wordsBE bs)[i]? = some (be32 (bs[4 * i]'(by omega)) (bs[4 * i + 1]'(by omega)) (bs[4 * i + 2]'(by omega))
      (bs[4 * i + 3]'(by omega))) := by
  induction i generalizing bs with
  | zero =>
    match bs, h with
    | b0 :: b1 :: b2 :: b3 :: rest, _ => simp [wordsBE]
  | succ i ih =>
    match bs, h with
    | b0 :: b1 :: b2 :: b3 :: rest, h =>
      simp only [wordsBE, List.getElem?_cons_succ]
      rw [ih rest (by simp at h; omega)]
      congr 2

theorem wordsBE_length (bs : List Byte) : (wordsBE bs).length = bs.length / 4 := by
  match bs with
  | b0 :: b1 :: b2 :: b3 :: rest => simp [wordsBE, wordsBE_length rest]; omega
  | [] => rfl
  | [_] => simp [wordsBE]
  | [_, _] => simp [wordsBE]
  | [_, _, _] => simp [wordsBE]

/-! ### The schedule -/

theorem extendSchedule_length (n : Nat) (ws : List Word) : (extendSchedule n ws).length = ws.length + n := by
  induction n generalizing ws with
  | zero => rfl
  | succ n ih => rw [extendSchedule, ih]; simp; omega

/-- Extending a schedule keeps its words. -/
theorem extendSchedule_getElem?_of_lt (n : Nat) (ws : List Word) (i : Nat) (h : i < ws.length) :
    (extendSchedule n ws)[i]? = ws[i]? := by
  induction n generalizing ws with
  | zero => rfl
  | succ n ih => rw [extendSchedule, ih _ (by simp; omega), List.getElem?_append_left h]

theorem extendSchedule_getD_of_lt (n : Nat) (ws : List Word) (i : Nat) (h : i < ws.length) :
    (extendSchedule n ws).getD i 0#32 = ws.getD i 0#32 := by
  simp [List.getD_eq_getElem?_getD, extendSchedule_getElem?_of_lt n ws i h]

/-- The first word added is the next schedule word. -/
theorem extendSchedule_getD_length (n : Nat) (ws : List Word) :
    (extendSchedule (n + 1) ws).getD ws.length 0#32 = nextScheduleWord ws := by
  rw [extendSchedule, extendSchedule_getD_of_lt _ _ _ (by simp), List.getD_append_right _ _ _ _ (le_refl _)]
  simp

theorem schedule_length (block : Block) : (schedule block).length = 80 := by
  rw [schedule, extendSchedule_length, wordsBE_length]
  simp

/-! ### The rounds -/

/-- The last of the rounds on a list of words. -/
theorem runRounds_append_singleton (t : Nat) (ws : List Word) (w : Word) (k : Working) :
    runRounds t (ws ++ [w]) k = roundStep (t + ws.length) w (runRounds t ws k) := by
  induction ws generalizing t k with
  | nil => rfl
  | cons x ws ih => rw [List.cons_append, runRounds, ih, runRounds]; congr 1; simp; omega

theorem compress_eq (h : Acc) (block : Block) :
    compress h block = feedForward h (runRounds 0 (schedule block) (workingCopy h)) := by
  unfold compress
  rfl

end Sys2Proof.Machine
end

