-- ==== Sys2Proof/Laws/Decode.lean ====
section
/-! SUPPORT. The fields of a command word as numbers, and the words of assembler lines. -/

namespace Sys2Proof.Machine

theorem opField_toNat (w : CmdWord) : (opField w).toNat = w.toNat / 256 := by
  have := w.isLt
  simp [opField, BitVec.extractLsb'_toNat, Nat.shiftRight_eq_div_pow]
  omega

theorem dataField_toNat (w : CmdWord) : (dataField w).toNat = w.toNat % 256 := by
  simp [dataField, BitVec.extractLsb'_toNat]

theorem cmdWord_toNat (op data : Byte) : (cmdWord op data).toNat = 256 * op.toNat + data.toNat := by
  have := op.isLt
  have := data.isLt
  simp only [cmdWord, BitVec.toNat_append]
  rw [← Nat.shiftLeft_add_eq_or_of_lt (by omega)]
  simp [Nat.shiftLeft_eq]
  omega

/-- The word of ABSORB as R59 writes it. -/
theorem encode_absorb_eq_or : ∀ d : Byte, encode (.absorb d) = 0x0200#16 ||| d.setWidth 16 := by decide +kernel

/-- ABSORB lines followed by other lines. -/
theorem assemble_absorb_lines (bs : List AsmByte) (h : ∀ b ∈ bs, b.wellFormed = true) (tail : List AsmLine)
    (ws : List CmdWord) (ht : assemble tail = some ws) :
    assemble (bs.map .absorb ++ tail) = some ((absorbsCommands (bs.map asmByteValue)).map encode ++ ws) := by
  induction bs with
  | nil => simpa [absorbsCommands] using ht
  | cons b bs ih =>
    have hb := h b (by simp)
    have hrest := ih (fun b hb => h b (by simp [hb]))
    simp only [List.map_cons, List.cons_append, assemble, assembleLine, AsmLine.wellFormed, hb, if_true, hrest,
      absorbsCommands, encode_absorb_eq_or, List.nil_append]

end Sys2Proof.Machine
end

