-- ==== Sys2Proof/Laws/State.lean ====
section
/-! SUPPORT. One lemma per field of State and of Engine for each update of Machine/Ops.lean. -/

namespace Sys2Proof.Machine

/-! ### `respond` and `raiseErr` -/

@[simp] theorem State.respond_engine (s : State) (c : ResponseCode) (p : List Byte) :
    (s.respond c p).engine = s.engine := rfl
@[simp] theorem State.respond_pending (s : State) (c : ResponseCode) (p : List Byte) :
    (s.respond c p).pending = s.pending := rfl
@[simp] theorem State.respond_responses (s : State) (c : ResponseCode) (p : List Byte) :
    (s.respond c p).responses = s.responses ++ [⟨c, p⟩] := rfl
@[simp] theorem State.respond_faultMark (s : State) (c : ResponseCode) (p : List Byte) :
    (s.respond c p).faultMark = (s.faultMark || decide (c ≠ .ok)) := rfl

@[simp] theorem State.raiseErr_engine (s : State) (c : ResponseCode) : (s.raiseErr c).engine = s.engine := rfl
@[simp] theorem State.raiseErr_pending (s : State) (c : ResponseCode) : (s.raiseErr c).pending = s.pending := rfl
@[simp] theorem State.raiseErr_responses (s : State) (c : ResponseCode) :
    (s.raiseErr c).responses = s.responses ++ [⟨c, []⟩] := rfl
@[simp] theorem State.raiseErr_faultMark (s : State) (c : ResponseCode) :
    (s.raiseErr c).faultMark = (s.faultMark || decide (c ≠ .ok)) := rfl

/-! ### `takeIllegal`, `takeReset`, `idle`, `issueNext` -/

@[simp] theorem State.takeIllegal_engine (s : State) : s.takeIllegal.engine = s.engine := rfl
@[simp] theorem State.takeIllegal_pending (s : State) : s.takeIllegal.pending = s.pending := rfl
@[simp] theorem State.takeIllegal_responses (s : State) :
    s.takeIllegal.responses = s.responses ++ [⟨.errIllegal, []⟩] := rfl
@[simp] theorem State.takeIllegal_faultMark (s : State) : s.takeIllegal.faultMark = true := by
  simp [State.takeIllegal]

@[simp] theorem State.takeReset_engine (s : State) : s.takeReset.engine = Engine.fresh := rfl
@[simp] theorem State.takeReset_pending (s : State) : s.takeReset.pending = s.pending := rfl
@[simp] theorem State.takeReset_responses (s : State) : s.takeReset.responses = s.responses := rfl
@[simp] theorem State.takeReset_faultMark (s : State) : s.takeReset.faultMark = s.faultMark := rfl

@[simp] theorem State.idle_eq (s : State) : s.idle = s := rfl

@[simp] theorem State.issueNext_engine (s : State) (w : CmdWord) : (s.issueNext w).engine = s.engine := rfl
@[simp] theorem State.issueNext_pending (s : State) (w : CmdWord) :
    (s.issueNext w).pending = .command w :: s.pending := rfl
@[simp] theorem State.issueNext_responses (s : State) (w : CmdWord) :
    (s.issueNext w).responses = s.responses := rfl
@[simp] theorem State.issueNext_faultMark (s : State) (w : CmdWord) :
    (s.issueNext w).faultMark = s.faultMark := rfl

theorem State.nextEvent_nil (s : State) (h : s.pending = []) : s.nextEvent = none := by
  simp [State.nextEvent, h]
theorem State.nextEvent_cons (s : State) (ev : HostEvent) (rest : List HostEvent)
    (h : s.pending = ev :: rest) : s.nextEvent = some (ev, { s with pending := rest }) := by
  simp [State.nextEvent, h]

/-! ### The engine's updates -/

@[simp] theorem Engine.store_h (e : Engine) (d : Byte) : (e.store d).h = e.h := rfl
@[simp] theorem Engine.store_buf (e : Engine) (d : Byte) :
    (e.store d).buf = e.buf.set e.cur.toNat d e.cur.isLt := rfl
@[simp] theorem Engine.store_cur (e : Engine) (d : Byte) : (e.store d).cur = e.cur := rfl
@[simp] theorem Engine.store_blkcnt (e : Engine) (d : Byte) : (e.store d).blkcnt = e.blkcnt := rfl
@[simp] theorem Engine.store_phase (e : Engine) (d : Byte) : (e.store d).phase = e.phase := rfl

@[simp] theorem Engine.blockFull_h (e : Engine) : e.blockFull.h = compress e.h e.buf := rfl
@[simp] theorem Engine.blockFull_buf (e : Engine) : e.blockFull.buf = Vector.replicate 64 0x00#8 := rfl
@[simp] theorem Engine.blockFull_cur (e : Engine) : e.blockFull.cur = 0#6 := rfl
@[simp] theorem Engine.blockFull_blkcnt (e : Engine) : e.blockFull.blkcnt = e.blkcnt + 1#55 := rfl
@[simp] theorem Engine.blockFull_phase (e : Engine) : e.blockFull.phase = e.phase := rfl

@[simp] theorem Engine.fresh_h : Engine.fresh.h = Acc.iv := rfl
@[simp] theorem Engine.fresh_buf : Engine.fresh.buf = Vector.replicate 64 0#8 := rfl
@[simp] theorem Engine.fresh_cur : Engine.fresh.cur = 0#6 := rfl
@[simp] theorem Engine.fresh_blkcnt : Engine.fresh.blkcnt = 0#55 := rfl
@[simp] theorem Engine.fresh_phase : Engine.fresh.phase = .active := rfl

end Sys2Proof.Machine
end

