-- ==== Sys2Proof/Laws/Ops.lean ====
section
/-! SUPPORT. What the shared operations can do, said once each: the absorb step by its two cases, a byte sequence that stays below the block end, the checks. -/

namespace Sys2Proof.Machine

/-! ### The absorb step -/

/-- The 7-bit `n = CUR + 1` is 64 exactly at CUR = 63. -/
theorem nextCursor_eq_iff (c : BitVec 6) : c.setWidth 7 + 1#7 = 64#7 ↔ c.toNat = 63 := by
  have := c.isLt
  constructor
  · intro h
    have := congrArg BitVec.toNat h
    simp at this
    omega
  · intro h
    apply BitVec.eq_of_toNat_eq
    simp
    omega

/-- Below the block end the step writes BUF[CUR] and CUR. -/
theorem Engine.absorbStep_of_lt (e : Engine) (d : Byte) (h : e.cur.toNat < 63) :
    e.absorbStep d =
      { e with buf := e.buf.set e.cur.toNat d e.cur.isLt, cur := BitVec.ofNat 6 (e.cur.toNat + 1) } := by
  have hn : ¬(e.cur.setWidth 7 + 1#7 = 64#7) := by rw [nextCursor_eq_iff]; omega
  have hc : (e.cur.setWidth 7 + 1#7).setWidth 6 = BitVec.ofNat 6 (e.cur.toNat + 1) := by
    apply BitVec.eq_of_toNat_eq
    simp
  simp only [Engine.absorbStep, if_neg hn, hc]
  rfl

/-- At the block end the step stores and the block is full. -/
theorem Engine.absorbStep_of_full (e : Engine) (d : Byte) (h : e.cur.toNat = 63) :
    e.absorbStep d = (e.store d).blockFull := by
  simp only [Engine.absorbStep, if_pos ((nextCursor_eq_iff e.cur).2 h)]

@[simp] theorem Engine.absorbStep_phase (e : Engine) (d : Byte) : (e.absorbStep d).phase = e.phase := by
  simp only [Engine.absorbStep]
  split <;> rfl

@[simp] theorem Engine.absorbBytes_nil (e : Engine) : e.absorbBytes [] = e := rfl

@[simp] theorem Engine.absorbBytes_cons (e : Engine) (b : Byte) (bs : List Byte) :
    e.absorbBytes (b :: bs) = (e.absorbStep b).absorbBytes bs := rfl

theorem Engine.absorbBytes_append (e : Engine) (bs cs : List Byte) :
    e.absorbBytes (bs ++ cs) = (e.absorbBytes bs).absorbBytes cs := List.foldl_append

@[simp] theorem Engine.absorbBytes_phase (e : Engine) (bs : List Byte) : (e.absorbBytes bs).phase = e.phase := by
  induction bs generalizing e with
  | nil => rfl
  | cons b bs ih => rw [Engine.absorbBytes_cons, ih, Engine.absorbStep_phase]

/-- The buffer with a byte sequence written from a position on. -/
def overlay (buf : Block) (at_ : Nat) (bs : List Byte) : Block :=
  Vector.ofFn fun j : Fin 64 =>
    if j.val < at_ then buf[j.val] else if j.val - at_ < bs.length then bs.getD (j.val - at_) 0#8 else buf[j.val]

theorem overlay_getElem (buf : Block) (at_ : Nat) (bs : List Byte) (j : Nat) (hj : j < 64) :
    (overlay buf at_ bs)[j] =
      if j < at_ then buf[j] else if j - at_ < bs.length then bs.getD (j - at_) 0#8 else buf[j] := by
  simp [overlay]

/-- One more byte written after a set is one overlay. -/
theorem overlay_set (buf : Block) (c : Nat) (hc : c < 64) (b : Byte) (bs : List Byte) :
    overlay (buf.set c b hc) (c + 1) bs = overlay buf c (b :: bs) := by
  apply Vector.ext
  intro j hj
  simp only [overlay_getElem, Vector.getElem_set, List.length_cons]
  by_cases h1 : j < c
  · simp [h1, Nat.lt_succ_of_lt h1, Nat.ne_of_gt h1]
  · by_cases h2 : j = c
    · subst h2; simp
    · have h3 : ¬ j < c + 1 := by omega
      have h4 : j - c = (j - (c + 1)) + 1 := by omega
      have h5 : c ≠ j := fun h => h2 h.symm
      simp [h1, h3, h4, h5]

/-- A byte sequence that stays below the block end only fills the buffer and moves the cursor. -/
theorem Engine.absorbBytes_of_lt (bs : List Byte) (e : Engine) (h : e.cur.toNat + bs.length ≤ 63) :
    e.absorbBytes bs =
      { e with
        buf := overlay e.buf e.cur.toNat bs
        cur := BitVec.ofNat 6 (e.cur.toNat + bs.length) } := by
  induction bs generalizing e with
  | nil =>
    have : overlay e.buf e.cur.toNat [] = e.buf := by
      apply Vector.ext; intro j hj; simp [overlay_getElem]
    simp [this]
  | cons b bs ih =>
    simp only [List.length_cons] at h
    rw [Engine.absorbBytes_cons, Engine.absorbStep_of_lt e b (by omega), ih]
    · have hc : (BitVec.ofNat 6 (e.cur.toNat + 1)).toNat = e.cur.toNat + 1 := by
        simp; omega
      simp only [hc, overlay_set, List.length_cons]
      congr 2
      omega
    · simp; omega

/-- A byte sequence that fills the block exactly compresses it once and leaves the buffer empty. -/
theorem Engine.absorbBytes_of_full (bs : List Byte) (e : Engine) (hne : bs ≠ [])
    (h : e.cur.toNat + bs.length = 64) :
    e.absorbBytes bs =
      { h := compress e.h (overlay e.buf e.cur.toNat bs)
        buf := Vector.replicate 64 0x00#8
        cur := 0#6
        blkcnt := e.blkcnt + 1#55
        phase := e.phase } := by
  obtain ⟨init, last, rfl⟩ : ∃ init last, bs = init ++ [last] :=
    ⟨bs.dropLast, bs.getLast hne, (List.dropLast_append_getLast hne).symm⟩
  simp only [List.length_append, List.length_singleton] at h
  rw [Engine.absorbBytes_append, Engine.absorbBytes_of_lt init e (by omega)]
  have hc : (BitVec.ofNat 6 (e.cur.toNat + init.length)).toNat = 63 := by simp; omega
  rw [Engine.absorbBytes_cons, Engine.absorbBytes_nil, Engine.absorbStep_of_full _ _ hc]
  have hbuf : (overlay e.buf e.cur.toNat init).set (BitVec.ofNat 6 (e.cur.toNat + init.length)).toNat last
      (BitVec.isLt _) = overlay e.buf e.cur.toNat (init ++ [last]) := by
    apply Vector.ext
    intro j hj
    simp only [Vector.getElem_set, overlay_getElem, hc, List.length_append, List.length_singleton]
    by_cases h63 : 63 = j
    · subst h63
      have hl : 63 - e.cur.toNat = init.length := by omega
      have h1 : ¬ (63 < e.cur.toNat) := by omega
      simp [h1, hl]
    · have hlt : j - e.cur.toNat < init.length ∨ j < e.cur.toNat := by omega
      rcases hlt with hlt | hlt
      · by_cases h1 : j < e.cur.toNat
        · simp [h1, h63]
        · have hlt' : j - e.cur.toNat < init.length + 1 := by omega
          simp [h1, h63, hlt, hlt']
      · simp [hlt, h63]
  simp only [Engine.blockFull, Engine.store, hbuf]

/-! ### The checks -/

theorem toNat_maxBlkcnt : maxBlkcnt.toNat = 36028797018963967 := by decide

theorem Engine.lengthFull_iff (e : Engine) :
    e.lengthFull = true ↔ e.blkcnt.toNat = 36028797018963967 ∧ e.cur.toNat = 63 := by
  simp only [Engine.lengthFull, decide_eq_true_eq, ← BitVec.toNat_inj, toNat_maxBlkcnt]
  simp

theorem Engine.absorbError_finalized (e : Engine) (h : e.phase = .finalized) :
    e.absorbError = some .errFinalized := by
  simp [Engine.absorbError, h]

theorem Engine.absorbError_full (e : Engine) (h : e.phase = .active) (hf : e.lengthFull = true) :
    e.absorbError = some .errLength := by
  simp [Engine.absorbError, h, hf]

theorem Engine.absorbError_none (e : Engine) (h : e.phase = .active) (hf : e.lengthFull = false) :
    e.absorbError = none := by
  simp [Engine.absorbError, h, hf]

theorem Engine.finalizeError_finalized (e : Engine) (h : e.phase = .finalized) :
    e.finalizeError = some .errFinalized := by
  simp [Engine.finalizeError, h]

theorem Engine.finalizeError_active (e : Engine) (h : e.phase = .active) : e.finalizeError = none := by
  simp [Engine.finalizeError, h]

/-! ### Lengths of byte strings -/

@[simp] theorem bytesBE_length {w : Nat} (v : BitVec w) (n : Nat) : (bytesBE v n).length = n := by
  induction n with
  | zero => rfl
  | succ n ih => simp [bytesBE, ih]

@[simp] theorem digestBytes_length (h : Acc) : (digestBytes h).length = 20 := by simp [digestBytes]

@[simp] theorem padBytes_length (c : BitVec 6) (l : BitVec 64) : (padBytes c l).length = padZeros c + 9 := by
  simp [padBytes]

theorem padZeros_of_le (c : BitVec 6) (h : c.toNat ≤ 55) : padZeros c = 55 - c.toNat := by
  simp [padZeros, BitVec.toNat_sub]
  omega

theorem padZeros_of_gt (c : BitVec 6) (h : 56 ≤ c.toNat) : padZeros c = 119 - c.toNat := by
  have := c.isLt
  simp [padZeros, BitVec.toNat_sub]
  omega

end Sys2Proof.Machine
end

