-- ==== Sys2Proof/Laws/Message.lean ====
section
/-! SUPPORT. The lemmas of the terms claims use: COMPRESS folded over blocks, the padding's bytes, the length T, the zero tail, and engines equal but for their tails, a host about to issue commands. -/

namespace Sys2Proof.Machine

/-! ### Blocks -/

theorem firstBlock_getElem (bs : List Byte) (j : Nat) (hj : j < 64) : (firstBlock bs)[j] = bs.getD j 0x00#8 := by
  simp [firstBlock]

theorem firstBlock_append (m x : List Byte) (h : 64 ≤ m.length) : firstBlock (m ++ x) = firstBlock m := by
  apply Vector.ext
  intro j hj
  rw [firstBlock_getElem, firstBlock_getElem, List.getD_append _ _ _ _ (by omega)]

/-- Only the blocks counted matter. -/
theorem hashBlocks_append (n : Nat) (h : Acc) (m x : List Byte) (hl : 64 * n ≤ m.length) :
    hashBlocks n h (m ++ x) = hashBlocks n h m := by
  induction n generalizing h m with
  | zero => rfl
  | succ n ih =>
    rw [hashBlocks, hashBlocks, List.drop_append_of_le_length (by omega), ih _ _ (by simp; omega),
      firstBlock_append _ _ (by omega)]

/-- The last of the blocks. -/
theorem hashBlocks_succ (n : Nat) (h : Acc) (m : List Byte) :
    hashBlocks (n + 1) h m = compress (hashBlocks n h m) (firstBlock (m.drop (64 * n))) := by
  induction n generalizing h m with
  | zero => rfl
  | succ n ih => rw [hashBlocks, ih, hashBlocks, List.drop_drop, show 64 + 64 * n = 64 * (n + 1) by omega]

/-! ### The padding's bytes -/

theorem bytesBE_getD {w : Nat} (v : BitVec w) (n i : Nat) (h : i < n) :
    (bytesBE v n).getD i 0#8 = v.extractLsb' (8 * (n - 1 - i)) 8 := by
  induction n generalizing i with
  | zero => omega
  | succ n ih =>
    cases i with
    | zero => simp [bytesBE]
    | succ i =>
      simp only [bytesBE, List.getD_cons_succ]
      rw [ih i (by omega)]
      congr 2
      omega

theorem padBytes_getD (c : BitVec 6) (l : BitVec 64) (i : Nat) (h : i < padZeros c + 9) :
    (padBytes c l).getD i 0#8 =
      if i = 0 then 0x80#8 else if i ≤ padZeros c then 0x00#8 else l.extractLsb' (8 * (padZeros c + 8 - i)) 8 := by
  cases i with
  | zero => simp [padBytes]
  | succ i =>
    simp only [padBytes, List.getD_cons_succ]
    by_cases hi : i < padZeros c
    · rw [List.getD_append _ _ _ _ (by simpa using hi)]
      have : i + 1 ≤ padZeros c := hi
      simp [hi, this]
    · rw [List.getD_append_right _ _ _ _ (by simp; omega), bytesBE_getD _ _ _ (by simp; omega)]
      have : ¬ i + 1 ≤ padZeros c := by omega
      simp [this]
      congr 2
      omega

@[simp] theorem Engine.pad_phase (e : Engine) : e.pad.phase = e.phase := by simp [Engine.pad]

/-! ### The length T -/

/-- Below 2^61 bytes the length field is the length in bits, with nothing open. -/
theorem lengthField_of_lt (n : Nat) (h : n < 2 ^ 61) : lengthField n = BitVec.ofNat 64 (8 * n) := if_pos h

/-- The length field holds the length in bits exactly. -/
theorem lengthField_toNat (n : Nat) (h : n < 2 ^ 61) : (lengthField n).toNat = 8 * n := by
  rw [lengthField_of_lt n h]
  simp
  omega

theorem Engine.totalLength_le (e : Engine) : e.totalLength ≤ 2 ^ 61 - 1 := by
  have := e.blkcnt.isLt
  have := e.cur.isLt
  simp only [Engine.totalLength]
  omega

theorem Engine.lengthFull_iff_totalLength (e : Engine) : e.lengthFull = true ↔ e.totalLength = 2 ^ 61 - 1 := by
  have := e.blkcnt.isLt
  have := e.cur.isLt
  rw [Engine.lengthFull_iff]
  simp only [Engine.totalLength]
  omega

/-! ### The zero tail -/

theorem zeroTail_of_empty (h : Acc) (c : BitVec 6) (b : BitVec 55) (p : Phase) :
    Engine.zeroTail ⟨h, Vector.replicate 64 0#8, c, b, p⟩ := by
  intro j hj _
  simp

theorem Engine.absorbStep_zeroTail (e : Engine) (d : Byte) (h : e.zeroTail) : (e.absorbStep d).zeroTail := by
  by_cases hc : e.cur.toNat = 63
  · rw [Engine.absorbStep_of_full e d hc]
    exact zeroTail_of_empty _ _ _ _
  · have := e.cur.isLt
    rw [Engine.absorbStep_of_lt e d (by omega)]
    intro j hj hle
    have hcur : (BitVec.ofNat 6 (e.cur.toNat + 1)).toNat = e.cur.toNat + 1 := by simp; omega
    simp only [hcur] at hle
    have hne : e.cur.toNat ≠ j := by omega
    simp only [Vector.getElem_set, hne, if_false]
    exact h j hj (by omega)

/-! ### Equal but for the tail -/

theorem Engine.SameButTail.refl (e : Engine) : e.SameButTail e := ⟨rfl, rfl, rfl, rfl, fun _ _ _ => rfl⟩

/-- The absorb step writes the first byte of the tail, so what was equal stays so. -/
theorem Engine.SameButTail.absorbStep (e f : Engine) (d : Byte) (h : e.SameButTail f) :
    (e.absorbStep d).SameButTail (f.absorbStep d) := by
  have hcur := h.cur
  have hlt := e.cur.isLt
  by_cases hc : e.cur.toNat = 63
  · rw [Engine.absorbStep_of_full e d hc, Engine.absorbStep_of_full f d (hcur ▸ hc)]
    have hbuf : (e.store d).buf = (f.store d).buf := by
      apply Vector.ext
      intro j hj
      simp only [Engine.store_buf, Vector.getElem_set, hcur]
      split
      · rfl
      · exact h.filled j hj (by rw [← hcur] at *; omega)
    refine ⟨?_, rfl, ?_, h.phase, fun _ _ _ => rfl⟩
    · rw [Engine.blockFull_h, Engine.blockFull_h, hbuf, Engine.store_h, Engine.store_h, h.h]
    · rw [Engine.blockFull_blkcnt, Engine.blockFull_blkcnt, Engine.store_blkcnt, Engine.store_blkcnt, h.blkcnt]
  · rw [Engine.absorbStep_of_lt e d (by omega), Engine.absorbStep_of_lt f d (by rw [← hcur]; omega)]
    refine ⟨h.h, by simp [hcur], h.blkcnt, h.phase, ?_⟩
    intro j hj hlt'
    have hc1 : (BitVec.ofNat 6 (e.cur.toNat + 1)).toNat = e.cur.toNat + 1 := by simp; omega
    simp only [hc1] at hlt'
    simp only [Vector.getElem_set, hcur]
    split
    · rfl
    · exact h.filled j hj (by rw [← hcur] at *; omega)

theorem Engine.SameButTail.absorbBytes (bs : List Byte) (e f : Engine) (h : e.SameButTail f) :
    (e.absorbBytes bs).SameButTail (f.absorbBytes bs) := by
  induction bs generalizing e f with
  | nil => exact h
  | cons b bs ih => exact ih _ _ (Engine.SameButTail.absorbStep e f b h)

/-! ### A host about to issue commands -/

theorem State.issuing_nil (s : State) : s.issuing [] = { s with pending := [] } := rfl

/-- The first of the commands is the next event, the others are left for after it. -/
theorem State.issuing_cons (s : State) (i : Instr) (is : List Instr) :
    s.issuing (i :: is) = { s with pending := .command (encode i) :: (s.issuing is).pending } := rfl

@[simp] theorem State.issuing_engine (s : State) (is : List Instr) : (s.issuing is).engine = s.engine := rfl

@[simp] theorem State.issuing_responses (s : State) (is : List Instr) : (s.issuing is).responses = s.responses := rfl

@[simp] theorem State.issuing_faultMark (s : State) (is : List Instr) : (s.issuing is).faultMark = s.faultMark := rfl

/-- What the host was about to do before does not matter. -/
@[simp] theorem State.issuing_withPending (s : State) (p : List HostEvent) (is : List Instr) :
    State.issuing { s with pending := p } is = s.issuing is := rfl

end Sys2Proof.Machine
end

