-- ==== Sys2Proof/Laws/PerInstr.lean ====
section
/-! SUPPORT. For every command: it is well-formed, and its word has its row's `match` under its row's `mask` (30_encoding.md R52). -/

namespace Sys2Proof.Laws.EncodingRow

/-- The command is well-formed and its word lies in its row of the opcode table. -/
def Statement (i : Instr) : Prop := i.wellFormed = true ∧ encode i &&& rowMask i = rowMatch i

theorem init : Statement .init := ⟨rfl, by decide⟩

theorem absorb (d : Byte) : Statement (.absorb d) := ⟨rfl, by revert d; decide +kernel⟩

theorem finalize : Statement .finalize := ⟨rfl, by decide⟩

end Sys2Proof.Laws.EncodingRow
end

