-- ==== Sys2Proof/Laws/Step.lean ====
section
/-! SUPPORT. What a command, a step and a run can do, said once each. -/

namespace Sys2Proof.Machine

/-! ### One command -/

theorem exec_init (s : State) :
    exec .init s = .next (State.respond { s with engine := Engine.fresh } .ok []) := rfl

theorem exec_absorb_of_finalized (d : Byte) (s : State) (h : s.engine.phase = .finalized) :
    exec (.absorb d) s = .next (s.raiseErr .errFinalized) := by
  simp [exec, execAbsorb, Engine.absorbError_finalized _ h]

theorem exec_absorb_of_lengthFull (d : Byte) (s : State) (h : s.engine.phase = .active)
    (hf : s.engine.lengthFull = true) : exec (.absorb d) s = .next (s.raiseErr .errLength) := by
  simp [exec, execAbsorb, Engine.absorbError_full _ h hf]

theorem exec_absorb_of_active (d : Byte) (s : State) (h : s.engine.phase = .active)
    (hf : s.engine.lengthFull = false) :
    exec (.absorb d) s = .next (State.respond { s with engine := s.engine.absorbStep d } .ok []) := by
  simp [exec, execAbsorb, Engine.absorbError_none _ h hf]

theorem exec_finalize_of_finalized (s : State) (h : s.engine.phase = .finalized) :
    exec .finalize s = .next (s.raiseErr .errFinalized) := by
  simp [exec, execFinalize, Engine.finalizeError_finalized _ h]

theorem exec_finalize_of_active (s : State) (h : s.engine.phase = .active) :
    exec .finalize s = .next (State.respond { s with engine := { s.engine.pad with phase := .finalized } } .ok
      (digestBytes s.engine.pad.h)) := by
  simp [exec, execFinalize, Engine.finalizeError_active _ h]

/-- The four things a command can do: answer an error and change no more, start afresh, absorb a byte, finalize. -/
theorem exec_cases (i : Instr) (s : State) :
    (∃ c, (c = .errFinalized ∧ s.engine.phase = .finalized ∨
        c = .errLength ∧ s.engine.phase = .active ∧ s.engine.lengthFull = true) ∧
      i ≠ .init ∧ exec i s = .next (s.raiseErr c)) ∨
    (i = .init ∧ exec i s = .next (State.respond { s with engine := Engine.fresh } .ok [])) ∨
    (∃ d, i = .absorb d ∧ s.engine.phase = .active ∧ s.engine.lengthFull = false ∧
      exec i s = .next (State.respond { s with engine := s.engine.absorbStep d } .ok [])) ∨
    (i = .finalize ∧ s.engine.phase = .active ∧
      exec i s = .next (State.respond { s with engine := { s.engine.pad with phase := .finalized } } .ok
        (digestBytes s.engine.pad.h))) := by
  cases i with
  | init => exact .inr (.inl ⟨rfl, rfl⟩)
  | absorb d =>
    cases hp : s.engine.phase with
    | finalized => exact .inl ⟨_, .inl ⟨rfl, rfl⟩, by simp, exec_absorb_of_finalized d s hp⟩
    | active =>
      cases hf : s.engine.lengthFull with
      | true => exact .inl ⟨_, .inr ⟨rfl, rfl, rfl⟩, by simp, exec_absorb_of_lengthFull d s hp hf⟩
      | false => exact .inr (.inr (.inl ⟨d, rfl, rfl, rfl, exec_absorb_of_active d s hp hf⟩))
  | finalize =>
    cases hp : s.engine.phase with
    | finalized => exact .inl ⟨_, .inl ⟨rfl, rfl⟩, by simp, exec_finalize_of_finalized s hp⟩
    | active => exact .inr (.inr (.inr ⟨rfl, rfl, exec_finalize_of_active s hp⟩))

/-- No command looks at the host's list. -/
theorem exec_withPending (i : Instr) (s t : State) (p : List HostEvent) (h : exec i s = .next t) :
    exec i { s with pending := p } = .next { t with pending := p } := by
  cases i with
  | init => simp only [exec, execInit] at *; cases h; rfl
  | absorb d =>
    simp only [exec, execAbsorb] at *
    cases hq : s.engine.absorbError <;> simp only [hq] at h ⊢ <;> cases h <;> rfl
  | finalize =>
    simp only [exec, execFinalize] at *
    cases hq : s.engine.finalizeError <;> simp only [hq] at h ⊢ <;> cases h <;> rfl

/-! ### One step -/

theorem step_of_idle (s : State) (h : s.pending = []) : step s = .next s := by
  simp only [step, State.nextEvent_nil s h, State.idle_eq]

theorem step_of_reset (s : State) (rest : List HostEvent) (h : s.pending = .reset :: rest) :
    step s = .next (State.takeReset { s with pending := rest }) := by
  simp only [step, State.nextEvent_cons s _ _ h]

theorem step_of_illegal (s : State) (w : CmdWord) (rest : List HostEvent) (why : Illegal)
    (h : s.pending = .command w :: rest) (hd : decode w = .error why) :
    step s = .next (State.takeIllegal { s with pending := rest }) := by
  simp only [step, State.nextEvent_cons s _ _ h, hd]

/-! ### A run -/

theorem run_zero (s : State) : Host.Core.run core 0 s = .next s := rfl

theorem run_succ (n : Nat) (s t : State) (h : step s = .next t) :
    Host.Core.run core (n + 1) s = Host.Core.run core n t := by
  have h' : core.step s = .next t := h
  simp only [Host.Core.run, h']

theorem run_add (m n : Nat) (s t : State) (h : Host.Core.run core m s = .next t) :
    Host.Core.run core (m + n) s = Host.Core.run core n t := by
  induction m generalizing s with
  | zero => cases h; rw [Nat.zero_add]
  | succ m ih =>
    simp only [Host.Core.run] at h
    split at h
    · rename_i u hu
      rw [Nat.succ_add, run_succ _ s u hu]
      exact ih u h
    · cases h
    · cases h

end Sys2Proof.Machine
end

