-- ==== Sys2Proof/Tests/Slice0.lean ====
section
/-! SUPPORT. The model's own tests: expected values from 95_test_vectors.md and from the worked examples and tables of the section files; and, for each statement with hypotheses, a state and operands that meet them. -/

namespace Sys2Proof.Tests

open Sys2Proof Sys2Proof.Machine

/-- An engine with the initialization vector in H and an empty buffer. -/
def engineAt (cur : BitVec 6) (blkcnt : BitVec 55) (phase : Phase) : Engine :=
  { h := Acc.iv, buf := Vector.replicate 64 0#8, cur := cur, blkcnt := blkcnt, phase := phase }

/-- A machine whose host is about to issue these words. -/
def machineWith (e : Engine) (ws : List CmdWord) : State :=
  { engine := e, pending := ws.map .command, responses := [], faultMark := false }

/-- The next state of an outcome. -/
def nextOf : Host.Outcome State Fault Refusal → Option State
  | .next t => some t
  | .fault _ => none
  | .refused _ => none

/-! ### Well-formedness: an ill-formed term for each check -/

theorem test_asm_number_over_255_refused : (AsmByte.num 256).wellFormed = false := by decide
theorem test_asm_char_over_ascii_refused : (AsmByte.chr (Char.ofNat 233)).wellFormed = false := by decide
theorem test_asm_list_with_bad_byte_refused : (AsmBytes.list [.num 1, .num 256]).wellFormed = false := by decide
theorem test_asm_text_over_ascii_refused : (AsmBytes.text ['a', Char.ofNat 233]).wellFormed = false := by decide
theorem test_asm_word_over_16_bits_refused : (AsmLine.word 65536).wellFormed = false := by decide
theorem test_asm_absorb_line_refused : assembleLine (.absorb (.num 256)) = none := by decide
theorem test_asm_absorbs_line_refused : assembleLine (.absorbs (.list [.num 256])) = none := by decide
theorem test_asm_hash_line_refused : assembleLine (.hash (.text [Char.ofNat 233])) = none := by decide

/-! ### Decoding: words from 30_encoding.md R52 and vector V17 -/

theorem test_decode_init : decode 0b0000000100000000#16 = .ok .init := by decide
theorem test_decode_absorb : decode 0b0000001001100001#16 = .ok (.absorb 0x61#8) := by decide
theorem test_decode_finalize : decode 0b0000001100000000#16 = .ok .finalize := by decide
theorem test_decode_zero_word : decode 0x0000#16 = .error (.reservedOp 0x00#8) := by decide
theorem test_decode_init_with_data : decode 0x0101#16 = .error (.reservedData 0x01#8 0x01#8) := by decide
theorem test_decode_finalize_with_data : decode 0x0301#16 = .error (.reservedData 0x03#8 0x01#8) := by decide
theorem test_decode_all_ones : decode 0xFFFF#16 = .error (.reservedOp 0xFF#8) := by decide
theorem test_table_rows_decode :
    decodeTableWord 16 0x0100 = some .init ∧ decodeTableWord 16 0x0200 = some (.absorb 0x00#8) ∧
      decodeTableWord 16 0x0300 = some .finalize ∧ decodeTableWord 16 0x0400 = none := by decide
theorem test_table_rows_run_first :
    (nextOf (step (State.reset.withFetchWord 16 0x0100))).isSome ∧
      (nextOf (step (State.reset.withFetchWord 16 0x02FF))).isSome ∧
      (nextOf (step (State.reset.withFetchWord 16 0x0300))).isSome := by decide

/-! ### Primitives and COMPRESS: vectors V9, V11, V13, V12, V10 -/

theorem test_rotl_5 : rotl 0x67452301#32 5 = 0xE8A4602C#32 := by decide
theorem test_rotl_30 : rotl 0xEFCDAB89#32 30 = 0x7BF36AE2#32 := by decide
theorem test_round_functions :
    fCh 0x80000001#32 0x00000001#32 0xFFFFFFFE#32 = 0x7FFFFFFF#32 ∧
      fParity 0x80000001#32 0x00000001#32 0xFFFFFFFE#32 = 0x7FFFFFFE#32 ∧
      fMaj 0x80000001#32 0x00000001#32 0xFFFFFFFE#32 = 0x80000001#32 := by decide

/-- The padded block of "abc" (42_compress.md R88). -/
def abcBlock : Block :=
  Vector.ofFn fun j : Fin 64 =>
    if j.val = 0 then 0x61#8 else if j.val = 1 then 0x62#8 else if j.val = 2 then 0x63#8
    else if j.val = 3 then 0x80#8 else if j.val = 63 then 0x18#8 else 0x00#8

theorem test_schedule_abc :
    (schedule abcBlock)[0]? = some 0x61626380#32 ∧ (schedule abcBlock)[16]? = some 0xC2C4C700#32 ∧
      (schedule abcBlock)[79]? = some 0x822E0879#32 := by decide +kernel
theorem test_compress_abc :
    compress Acc.iv abcBlock =
      ⟨0xA9993E36#32, 0x4706816A#32, 0xBA3E2571#32, 0x7850C26C#32, 0x9CD0D89D#32⟩ := by decide +kernel
theorem test_compress_all_ones :
    compress ⟨0xFFFFFFFF#32, 0xFFFFFFFF#32, 0xFFFFFFFF#32, 0xFFFFFFFF#32, 0xFFFFFFFF#32⟩
        (Vector.replicate 64 0xFF#8) =
      ⟨0x3F48159B#32, 0x2DCE51FA#32, 0x8A1E930A#32, 0x02083B68#32, 0xEF70D6E8#32⟩ := by decide +kernel

/-! ### INIT: vector V18 -/

theorem test_init_from_finalized :
    (nextOf (exec .init (machineWith (engineAt 3#6 7#55 .finalized) []))).map (fun t => (t.engine, t.responses)) =
      some (State.reset.engine, [⟨.ok, []⟩]) := by decide

/-! ### ABSORB: vectors V20 and V21 -/

/-- 63 bytes 0x61 absorbed (vector V20's start). -/
def almostFull : Engine := { engineAt 63#6 0#55 .active with buf := (Vector.replicate 64 0x61#8).set 63 0x00#8 }

theorem test_absorb_at_block_boundary :
    (nextOf (exec (.absorb 0x61#8) (machineWith almostFull []))).map
        (fun t => (t.engine.h, t.engine.cur, t.engine.blkcnt, t.engine.buf)) =
      some (⟨0xDA4968EB#32, 0x2E377C1F#32, 0x884E8F52#32, 0x83524BEB#32, 0xE74EBDBD#32⟩, 0#6, 1#55,
        Vector.replicate 64 0x00#8) := by decide +kernel
theorem test_absorb_at_length_limit :
    (nextOf (exec (.absorb 0x61#8) (machineWith (engineAt 63#6 0x7FFFFFFFFFFFFF#55 .active) []))).map
        (fun t => (t.engine, t.responses)) =
      some (engineAt 63#6 0x7FFFFFFFFFFFFF#55 .active, [⟨.errLength, []⟩]) := by decide

/-! ### FINALIZE: vectors V1, V22 and program P5 -/

theorem test_finalize_empty_message :
    (nextOf (exec .finalize State.reset)).map (fun t => (t.responses, t.engine.cur, t.engine.blkcnt, t.engine.phase)) =
      some ([⟨.ok, [0xDA#8, 0x39#8, 0xA3#8, 0xEE#8, 0x5E#8, 0x6B#8, 0x4B#8, 0x0D#8, 0x32#8, 0x55#8,
        0xBF#8, 0xEF#8, 0x95#8, 0x60#8, 0x18#8, 0x90#8, 0xAF#8, 0xD8#8, 0x07#8, 0x09#8]⟩],
        0#6, 1#55, .finalized) := by decide +kernel

/-- Program P5 after its first ABSORB. -/
def atLengthLimit : Engine :=
  { engineAt 63#6 0x7FFFFFFFFFFFFF#55 .active with buf := (Vector.replicate 64 0x00#8).set 62 0x41#8 }

theorem test_finalize_at_length_limit :
    (nextOf (exec .finalize (machineWith atLengthLimit []))).map (fun t => (t.responses, t.engine.blkcnt)) =
      some ([⟨.ok, [0x22#8, 0x26#8, 0x63#8, 0x34#8, 0xCE#8, 0x82#8, 0x00#8, 0x6A#8, 0xAF#8, 0x9C#8,
        0x5D#8, 0xBE#8, 0x51#8, 0x42#8, 0xA7#8, 0xE8#8, 0x26#8, 0x47#8, 0xF5#8, 0xA0#8]⟩], 1#55) := by
  decide +kernel
theorem test_pad_at_56 :
    padBytes 56#6 0x1C0#64 =
      0x80#8 :: (List.replicate 63 0x00#8 ++ [0x00#8, 0x00#8, 0x00#8, 0x00#8, 0x00#8, 0x00#8, 0x01#8, 0xC0#8]) := by
  decide

/-! ### Illegal words, reset, the assembler: vectors V26, V3, 30_encoding.md R59, R60 -/

theorem test_illegal_word_on_finalized :
    (nextOf (step (machineWith (engineAt 0#6 1#55 .finalized) [0x03FF#16]))).map
        (fun t => (t.engine, t.responses, t.faultMark)) =
      some (engineAt 0#6 1#55 .finalized, [⟨.errIllegal, []⟩], true) := by decide
theorem test_parse_absorb_char :
    parseLine ['\t', 'A', 'B', 'S', 'O', 'R', 'B', ' ', '\'', ';', '\'', ' ', ';', 'x'] =
      some (.absorb (.chr ';')) := by decide
theorem test_parse_word_hex :
    parseLine ['.', 'w', 'o', 'r', 'd', ' ', '0', 'x', '0', '3', '0', '1'] = some (.word 0x0301) := by decide
theorem test_parse_absorbs_list :
    parseLine ['A', 'B', 'S', 'O', 'R', 'B', 'S', ' ', '9', '7', ',', ' ', '0', 'x', '6', '2'] =
      some (.absorbs (.list [.num 97, .num 98])) := by decide
theorem test_parse_hash_text :
    parseLine ['H', 'A', 'S', 'H', ' ', '"', 'a', ' ', 'b', '"'] = some (.hash (.text ['a', ' ', 'b'])) := by decide
theorem test_hash_abc_words :
    assembleLine (.hash (.text ['a', 'b', 'c'])) =
      some [0x0100#16, 0x0261#16, 0x0262#16, 0x0263#16, 0x0300#16] := by decide
theorem test_print_bytes : printBytes [0xDA#8, 0x39#8, 0xA3#8] = ['d', 'a', '3', '9', 'a', '3'] := by decide

/-! ### Witnesses: for each statement with hypotheses, values that meet them -/

theorem witness_EveryWordDecodesByOpAndData :
    (machineWith (engineAt 0#6 0#55 .finalized) [0x0000#16]).pending = .command 0x0000#16 :: [] ∧
      decode 0x0000#16 = .error (.reservedOp 0x00#8) := by decide

theorem witness_ReservedWordsAnswerIllegal :
    (machineWith (engineAt 0#6 0#55 .active) [0x00FF#16]).pending = .command 0x00FF#16 :: [] ∧
      (0x00FF#16).toNat / 256 = 0 ∧
      (machineWith (engineAt 0#6 0#55 .active) [0x0400#16]).pending = .command 0x0400#16 :: [] ∧
      4 ≤ (0x0400#16).toNat / 256 ∧
      (machineWith (engineAt 0#6 0#55 .finalized) [0x01FF#16]).pending = .command 0x01FF#16 :: [] ∧
      ((0x01FF#16).toNat / 256 = 1 ∧ (0x01FF#16).toNat % 256 ≠ 0) ∧
      (machineWith (engineAt 0#6 0#55 .finalized) [0x0301#16]).pending = .command 0x0301#16 :: [] ∧
      ((0x0301#16).toNat / 256 = 3 ∧ (0x0301#16).toNat % 256 ≠ 0) ∧
      (0x0100#16).toNat / 256 = 1 ∧ (0x0300#16).toNat / 256 = 3 := by decide

theorem witness_OpcodeRowsSelectTheirWords : decode 0x02FF#16 = .ok (.absorb 0xFF#8) := by decide

theorem witness_AssembledLinesDecodeToTheirCommands :
    0 ≤ 255 ∧ 255 ≤ 255 ∧ (Char.ofNat 0).toNat ≤ 127 ∧ (Char.ofNat 127).toNat ≤ 127 ∧ 65535 ≤ 65535 ∧
      (∀ n, AsmLine.absorb (.num 255) ≠ .word n) ∧ assembleLine (.absorb (.num 255)) = some [0x02FF#16] :=
  ⟨by decide, by decide, by decide, by decide, by decide, by simp, by decide⟩

theorem witness_PseudoInstructionsExpandToCommands :
    (∀ b ∈ [AsmByte.num 0, AsmByte.num 255, AsmByte.chr 'a'], b.wellFormed = true) ∧
      ∀ c ∈ ['a', '~'], c.toNat ≤ 127 := ⟨by decide, by simp⟩

theorem witness_StepRunsTheDecodedCommand :
    (machineWith (engineAt 0#6 0#55 .active) [0x0261#16]).pending = .command 0x0261#16 :: [] ∧
      decode 0x0261#16 = .ok (.absorb 0x61#8) ∧ decodeTableWord 16 0x0300 = some .finalize := by decide

theorem witness_IdleStepChangesNothing : State.reset.pending = [] := rfl

theorem witness_EveryCommandAnswersOnce :
    (machineWith (engineAt 0#6 0#55 .active) [0x0300#16]).pending = .command 0x0300#16 :: [] ∧
      (machineWith (engineAt 0#6 0#55 .active) [0x0100#16]).pending = .command 0x0100#16 :: [] := by decide

theorem witness_RunShowsOneResponsePerWord :
    (machineWith (engineAt 0#6 0#55 .active) [0x0100#16, 0x0000#16]).pending =
      [0x0100#16, 0x0000#16].map .command ∧ 0 ≤ 2 ∧ 2 ≤ [0x0100#16, 0x0000#16].length := ⟨rfl, by decide, by decide⟩

theorem witness_LaterCommandsDoNotMatter :
    1 ≤ (machineWith (engineAt 5#6 0#55 .active) [0x0100#16]).pending.length ∧
      ∃ t : State, Host.Core.run core 1 (machineWith (engineAt 5#6 0#55 .active) [0x0100#16]) = .next t :=
  ⟨by decide, _, rfl⟩

theorem witness_InitGivesTheFreshEngine :
    (∃ t u : State, exec .init (machineWith (engineAt 5#6 9#55 .finalized) []) = .next t ∧ exec .init t = .next u) ∧
      (0x01#8 : Byte) ≠ 0x00#8 ∧
      (machineWith (engineAt 5#6 9#55 .active) [0x0101#16]).pending = .command (0x01#8 ++ (0x01#8 : Byte)) :: [] :=
  ⟨⟨_, _, rfl, rfl⟩, by decide, by decide⟩

/-- A machine about to be reset. -/
def beforeReset : State := { machineWith (engineAt 5#6 9#55 .finalized) [] with pending := [.reset] }

theorem witness_ResetGivesTheFreshEngine :
    beforeReset.pending = .reset :: [] ∧ ∃ t : State, exec .init beforeReset = .next t := ⟨rfl, _, rfl⟩

theorem witness_OnlyInitOrResetLeavesFinalized :
    beforeReset.engine.phase = .finalized ∧ (∃ t : State, step beforeReset = .next t) ∧
      (machineWith (engineAt 0#6 1#55 .finalized) [0x0300#16]).engine.phase = .finalized ∧
      ∃ t : State, step (machineWith (engineAt 0#6 1#55 .finalized) [0x0300#16]) = .next t :=
  ⟨rfl, ⟨_, rfl⟩, rfl, _, rfl⟩

theorem witness_AbsorbChecksThenStores :
    ((machineWith (engineAt 0#6 0#55 .active) [0x0301#16]).pending = .command 0x0301#16 :: [] ∧
      decode 0x0301#16 = .error (.reservedData 0x03#8 0x01#8)) ∧
      (engineAt 63#6 0x7FFFFFFFFFFFFF#55 .finalized).phase = .finalized ∧
      ((engineAt 63#6 0x7FFFFFFFFFFFFF#55 .active).phase = .active ∧
        (engineAt 63#6 0x7FFFFFFFFFFFFF#55 .active).blkcnt.toNat = 2 ^ 55 - 1 ∧
        (engineAt 63#6 0x7FFFFFFFFFFFFF#55 .active).cur.toNat = 63) ∧
      ((engineAt 62#6 0x7FFFFFFFFFFFFF#55 .active).phase = .active ∧
        ¬((engineAt 62#6 0x7FFFFFFFFFFFFF#55 .active).blkcnt.toNat = 2 ^ 55 - 1 ∧
          (engineAt 62#6 0x7FFFFFFFFFFFFF#55 .active).cur.toNat = 63)) ∧
      ((engineAt 63#6 0x7FFFFFFFFFFFFE#55 .active).phase = .active ∧
        ¬((engineAt 63#6 0x7FFFFFFFFFFFFE#55 .active).blkcnt.toNat = 2 ^ 55 - 1 ∧
          (engineAt 63#6 0x7FFFFFFFFFFFFE#55 .active).cur.toNat = 63)) := by decide

theorem witness_AbsorbStepStoresAndCompresses :
    (engineAt 62#6 0#55 .active).cur.toNat < 63 ∧ (engineAt 63#6 0x7FFFFFFFFFFFFF#55 .active).cur.toNat = 63 ∧
      ∃ t : State, exec (.absorb 0x00#8) (machineWith (engineAt 62#6 0#55 .active) []) = .next t :=
  ⟨by decide, by decide, _, rfl⟩

theorem witness_AbsorbBelowTheBlockEnd :
    (engineAt 62#6 0x7FFFFFFFFFFFFF#55 .active).phase = .active ∧
      (engineAt 62#6 0x7FFFFFFFFFFFFF#55 .active).cur.toNat < 63 := by decide

theorem witness_AbsorbFillingABlock :
    (engineAt 63#6 0x7FFFFFFFFFFFFE#55 .active).phase = .active ∧
      (engineAt 63#6 0x7FFFFFFFFFFFFE#55 .active).cur.toNat = 63 ∧
      (engineAt 63#6 0x7FFFFFFFFFFFFE#55 .active).blkcnt.toNat < 2 ^ 55 - 1 := by decide

theorem witness_AbsorbFrame :
    (∃ t : State, exec (.absorb 0x00#8) (machineWith (engineAt 62#6 0#55 .active) []) = .next t) ∧
      (engineAt 62#6 0#55 .active).cur.toNat < 63 ∧
      (∃ t : State, exec (.absorb 0x00#8) (machineWith (engineAt 0#6 0#55 .finalized) []) = .next t ∧
        t.responses = [⟨.errFinalized, []⟩]) := ⟨⟨_, rfl⟩, by decide, _, rfl, rfl⟩

theorem witness_AbsorbCountsOneByte :
    (engineAt 62#6 0x7FFFFFFFFFFFFF#55 .active).phase = .active ∧
      (engineAt 62#6 0x7FFFFFFFFFFFFF#55 .active).totalLength < 2 ^ 61 - 1 ∧
      (engineAt 63#6 0x7FFFFFFFFFFFFF#55 .active).totalLength = 2 ^ 61 - 1 ∧
      (nextOf (exec (.absorb 0x00#8) (machineWith (engineAt 62#6 0x7FFFFFFFFFFFFF#55 .active) []))).isSome ∧
      (nextOf (exec (.absorb 0x00#8) (machineWith (engineAt 63#6 0x7FFFFFFFFFFFFF#55 .active) []))).isSome := by
  decide

theorem reset_holds_empty : State.reset.engine.Holds [] :=
  ⟨rfl, rfl, rfl, fun j _ h => absurd h (Nat.not_lt_zero j)⟩

/-- The engine that holds "a". -/
def holdsA : Engine := { engineAt 1#6 0#55 .active with buf := (Vector.replicate 64 0x00#8).set 0 0x61#8 }

theorem holdsA_holds : holdsA.Holds [0x61#8] :=
  ⟨rfl, by decide, rfl, fun j hj h => by
    have h0 : j = 0 := Nat.lt_one_iff.1 h
    subst h0
    rfl⟩

theorem witness_AbsorbExtendsTheMessage : holdsA.Holds [0x61#8] ∧ [0x61#8].length < 2 ^ 61 - 1 :=
  ⟨holdsA_holds, by decide⟩

theorem witness_TheMessageFixesTheEngine : holdsA.Holds [0x61#8] ∧ holdsA.zeroTail :=
  ⟨holdsA_holds, fun j hj h => by
    have h0 : 0 ≠ j := Nat.ne_of_lt h
    simp [holdsA, engineAt, h0]⟩

/-- Chunks that end exactly at the length limit: one byte, then one more. -/
theorem witness_ChunkingDoesNotMatter :
    (machineWith (engineAt 61#6 0x7FFFFFFFFFFFFF#55 .active) []).engine.phase = .active ∧
      (machineWith (engineAt 61#6 0x7FFFFFFFFFFFFF#55 .active) []).engine.totalLength +
        ([0x61#8] ++ [0x62#8]).length < 2 ^ 61 := by decide

theorem witness_RoundFunctionsActBitwise :
    79 < 80 ∧ 31 < 32 ∧ (0 ≤ 19 ∧ 19 ≤ 19) ∧ (20 ≤ 20 ∧ 20 ≤ 39) ∧ (20 ≤ 39 ∧ 39 ≤ 39) ∧
      (40 ≤ 40 ∧ 40 ≤ 59) ∧ (40 ≤ 59 ∧ 59 ≤ 59) ∧ (60 ≤ 60 ∧ 60 ≤ 79) ∧ (60 ≤ 79 ∧ 79 ≤ 79) := by decide

theorem witness_RotationLosesNoBits : 0 < 31 ∧ 31 < 32 ∧ 31 < 32 := by decide

theorem witness_FinalizePadsThenAnswersTheDigest :
    (engineAt 56#6 0#55 .active).phase = .active ∧ (engineAt 0#6 1#55 .finalized).phase = .finalized ∧
      (0xFF#8 : Byte) ≠ 0x00#8 ∧
      (machineWith (engineAt 0#6 0#55 .active) [0x03FF#16]).pending = .command (0x03#8 ++ (0xFF#8 : Byte)) :: [] := by
  decide

theorem witness_FinalizeWithOneBlock :
    (engineAt 55#6 0#55 .active).phase = .active ∧ (engineAt 55#6 0#55 .active).cur.toNat ≤ 55 ∧
      (0x1B8#64).toNat = 512 * (engineAt 55#6 0#55 .active).blkcnt.toNat + 8 * (engineAt 55#6 0#55 .active).cur.toNat := by
  decide

theorem witness_FinalizeWithTwoBlocks :
    ((engineAt 56#6 0#55 .active).phase = .active ∧ 56 ≤ (engineAt 56#6 0#55 .active).cur.toNat ∧
      (0x1C0#64).toNat =
        512 * (engineAt 56#6 0#55 .active).blkcnt.toNat + 8 * (engineAt 56#6 0#55 .active).cur.toNat) ∧
      56 ≤ atLengthLimit.cur.toNat ∧
      (0xFFFFFFFFFFFFFFF8#64).toNat = 512 * atLengthLimit.blkcnt.toNat + 8 * atLengthLimit.cur.toNat := by decide

theorem witness_DigestIsTheAccumulatorBigEndian : State.reset.engine.phase = .active := rfl

theorem witness_FinalizeAnswersTheHashOfTheMessage :
    State.reset.engine.Holds [] ∧ (machineWith holdsA []).engine.Holds [0x61#8] := ⟨reset_holds_empty, holdsA_holds⟩

theorem witness_HashCommandsAnswerTheHashOfTheMessage :
    [0x61#8].length < 2 ^ 61 ∧
      (machineWith (engineAt 5#6 9#55 .finalized) [0x0100#16, 0x0261#16, 0x0300#16, 0x0000#16]).pending =
        (hashCommands [0x61#8]).map (fun i => .command (encode i)) ++ [.command 0x0000#16] := by decide

theorem witness_UseAfterFinalizeAnswersErrFinalized : (engineAt 0#6 1#55 .finalized).phase = .finalized := rfl

/-- An engine at the length limit that holds a message: 2^61 - 1 zero bytes, written down without being computed. -/
theorem witness_LengthLimitAnswersErrLength :
    ∃ (e : Engine) (m : List Byte), e.phase = .active ∧ e.blkcnt.toNat = 2 ^ 55 - 1 ∧ e.cur.toNat = 63 ∧ e.Holds m := by
  obtain ⟨n, hn⟩ : ∃ n : Nat, n = 2 ^ 61 - 1 := ⟨_, rfl⟩
  obtain ⟨k, hk⟩ : ∃ k : Nat, k = 2 ^ 55 - 1 := ⟨_, rfl⟩
  have hb : (BitVec.ofNat 55 k).toNat = k := by simp; omega
  refine ⟨{ engineAt 63#6 (BitVec.ofNat 55 k) .active with h := hashBlocks k Acc.iv (List.replicate n 0x00#8) },
    List.replicate n 0x00#8, rfl, hb.trans hk, rfl, rfl, ?_, ?_, ?_⟩
  · simp only [List.length_replicate, Engine.totalLength, engineAt, hb]
    simp
    omega
  · simp only [engineAt, hb]
  · intro j hj hlt
    simp only [engineAt, hb] at hlt ⊢
    rw [List.getElem?_replicate, if_pos (by simp at hlt; omega)]
    simp

theorem witness_FirstErrorThatAppliesIsAnswered :
    (machineWith (engineAt 63#6 0x7FFFFFFFFFFFFF#55 .active) [0x0241#16]).pending = .command 0x0241#16 :: [] ∧
      (machineWith (engineAt 63#6 0x7FFFFFFFFFFFFF#55 .active) [0x0300#16]).pending = .command 0x0300#16 :: [] ∧
      (machineWith (engineAt 63#6 0x7FFFFFFFFFFFFF#55 .finalized) [0x0400#16]).pending = .command 0x0400#16 :: [] := by
  decide

theorem witness_ErrorsLeaveTheEngineUnchanged :
    ∃ t : State, step (machineWith (engineAt 5#6 0#55 .active) [0x0000#16]) = .next t ∧
      t.responses = (machineWith (engineAt 5#6 0#55 .active) [0x0000#16]).responses ++ [⟨.errIllegal, []⟩] ∧
      ResponseCode.errIllegal ≠ .ok := ⟨_, rfl, rfl, by decide⟩

theorem witness_FaultMarkRecordsEveryError :
    (∃ t : State, step (machineWith (engineAt 5#6 0#55 .active) [0x0000#16]) = .next t ∧
      t.responses = (machineWith (engineAt 5#6 0#55 .active) [0x0000#16]).responses ++ [⟨.errIllegal, []⟩] ∧
      ResponseCode.errIllegal ≠ .ok ∧ t.faultMark = true ∧ ∃ u : State, step t = .next u) ∧
      ∃ t : State, Host.Core.run core 1 (machineWith (engineAt 5#6 0#55 .active) [0x0100#16]) = .next t ∧
        t.noFaultRecorded = true := ⟨⟨_, rfl, rfl, by decide, rfl, _, rfl⟩, _, rfl, rfl⟩

theorem witness_LifecycleFollowsTheTable :
    (machineWith (engineAt 62#6 0x7FFFFFFFFFFFFF#55 .active) [0x0241#16]).pending = .command 0x0241#16 :: [] ∧
      decode 0x0241#16 = .ok (.absorb 0x41#8) ∧
      (engineAt 62#6 0x7FFFFFFFFFFFFF#55 .active).totalLength < 2 ^ 61 - 1 ∧
      (engineAt 63#6 0x7FFFFFFFFFFFFF#55 .active).totalLength = 2 ^ 61 - 1 ∧
      decode 0x0300#16 = .ok .finalize ∧ decode 0x0100#16 = .ok .init ∧
      decode 0x0101#16 = .error (.reservedData 0x01#8 0x01#8) ∧
      (engineAt 0#6 1#55 .finalized).phase = .finalized := by decide

theorem witness_RefusedCommandsStayRefused :
    (∃ t : State, exec (.absorb 0x00#8) (machineWith (engineAt 63#6 0x7FFFFFFFFFFFFF#55 .active) []) = .next t ∧
      t.responses = [] ++ [⟨.errLength, []⟩]) ∧
      (∃ t : State, exec .finalize (machineWith (engineAt 0#6 1#55 .finalized) []) = .next t ∧
        t.responses = [] ++ [⟨.errFinalized, []⟩]) ∧
      (Instr.absorb 0x01#8 ≠ .init) := ⟨⟨_, rfl, rfl⟩, ⟨_, rfl, rfl⟩, by decide⟩

theorem witness_StepKeepsTheInvariant :
    (machineWith holdsA [0x0300#16]).Inv ∧ ∃ t : State, step (machineWith holdsA [0x0300#16]) = .next t :=
  ⟨⟨witness_TheMessageFixesTheEngine.2, (fun h => by cases h), (fun r hr => by cases hr), rfl⟩, _, rfl⟩

/-- `holdsA` with a stale last byte. -/
def staleTail : Engine := { holdsA with buf := holdsA.buf.set 63 0xFF#8 }

theorem witness_HiddenStateDoesNotShow :
    holdsA.SameForHost staleTail ∧
      (∃ t : State, step (machineWith holdsA [0x0300#16]) = .next t) ∧
      (∃ t : State, step (machineWith staleTail [0x0300#16]) = .next t) ∧
      (engineAt 0#6 1#55 .finalized).SameForHost (engineAt 5#6 9#55 .finalized) := by
  refine ⟨.inl ⟨rfl, rfl, rfl, rfl, ?_⟩, ⟨_, rfl⟩, ⟨_, rfl⟩, .inr ⟨rfl, rfl⟩⟩
  intro j hj h
  have h0 : j = 0 := Nat.lt_one_iff.1 h
  subst h0
  rfl

theorem witness_EnginesShareNoState :
    (1 : Nat) ≠ 0 ∧ [State.reset, beforeReset][1]? = some beforeReset ∧ ∃ t : State, step beforeReset = .next t :=
  ⟨by decide, rfl, _, rfl⟩

end Sys2Proof.Tests
end

section
/-! SUPPORT. Legal and ILLEGAL command words (30_encoding.md R52 to R58), and the one response every command gives (30_encoding.md R55). -/

namespace Sys2Proof.Machine

/-! ### The words that decode -/

theorem cmdWord_opField_dataField (w : CmdWord) : cmdWord (opField w) (dataField w) = w := by
  apply BitVec.eq_of_toNat_eq
  rw [cmdWord_toNat, opField_toNat, dataField_toNat]
  exact Nat.div_add_mod w.toNat 256

/-- A word that decodes to a command is that command's word (R52, R57). -/
theorem encode_of_decode_ok (w : CmdWord) (i : Instr) (h : decode w = .ok i) : encode i = w := by
  have hw := cmdWord_opField_dataField w
  simp only [decode] at h
  split at h
  next hop =>
    split at h
    next hdata => cases h; rw [← hw, hop, hdata, encode]
    next => cases h
  next =>
    split at h
    next hop => cases h; rw [encode, ← hop, hw]
    next =>
      split at h
      next hop =>
        split at h
        next hdata => cases h; rw [← hw, hop, hdata, encode]
        next => cases h
      next => cases h

theorem encode_absorb_toNat (d : Byte) : (encode (.absorb d)).toNat = 512 + d.toNat := by
  rw [encode, cmdWord_toNat]
  rfl

/-- The legal words as numbers: 0x0100, 0x0200 + d, 0x0300 (R52). -/
theorem decode_ok_cases (w : CmdWord) (i : Instr) (h : decode w = .ok i) :
    (i = .init ∧ w = 0x0100#16) ∨ (∃ d : Byte, i = .absorb d ∧ w.toNat = 512 + d.toNat) ∨
      (i = .finalize ∧ w = 0x0300#16) := by
  obtain rfl := encode_of_decode_ok w i h
  cases i with
  | init => exact .inl ⟨rfl, rfl⟩
  | absorb d => exact .inr (.inl ⟨d, rfl, encode_absorb_toNat d⟩)
  | finalize => exact .inr (.inr ⟨rfl, rfl⟩)

theorem decode_initWord : decode 0x0100#16 = .ok .init := rfl

theorem decode_finalizeWord : decode 0x0300#16 = .ok .finalize := rfl

/-- Among the words that decode, only 0x0300 is FINALIZE's. -/
theorem eq_finalizeWord_iff (w : CmdWord) (i : Instr) (h : decode w = .ok i) :
    w = 0x0300#16 ↔ i = .finalize := by
  constructor
  · rintro rfl
    rw [decode_finalizeWord] at h
    cases h
    rfl
  · rintro rfl
    exact (encode_of_decode_ok w .finalize h).symm

theorem decode_of_op_two (w : CmdWord) (hop : w.toNat / 256 = 2) : decode w = .ok (.absorb (dataField w)) := by
  have h2 : opField w = 0x02#8 := BitVec.eq_of_toNat_eq ((opField_toNat w).trans hop)
  simp [decode, h2]

/-- The legal words: 0x0100, every word with OP 0x02, and 0x0300 (R52 to R54). -/
theorem exists_decode_ok_iff (w : CmdWord) :
    (∃ i, decode w = .ok i) ↔ w = 0x0100#16 ∨ w.toNat / 256 = 2 ∨ w = 0x0300#16 := by
  constructor
  · rintro ⟨i, hd⟩
    obtain ⟨-, hw⟩ | ⟨d, -, hw⟩ | ⟨-, hw⟩ := decode_ok_cases w i hd
    · exact .inl hw
    · have := d.isLt
      exact .inr (.inl (by omega))
    · exact .inr (.inr hw)
  · rintro (rfl | hop | rfl)
    · exact ⟨.init, decode_initWord⟩
    · exact ⟨.absorb (dataField w), decode_of_op_two w hop⟩
    · exact ⟨.finalize, decode_finalizeWord⟩

/-- The legal words as numbers. -/
theorem exists_decode_ok_iff_toNat (w : CmdWord) :
    (∃ i, decode w = .ok i) ↔ w.toNat = 256 ∨ w.toNat / 256 = 2 ∨ w.toNat = 768 := by
  rw [exists_decode_ok_iff, ← BitVec.toNat_inj, ← BitVec.toNat_inj]
  rfl

/-- The reserved words of R53 and R54 decode to no command. -/
theorem exists_decode_error_of_reserved (w : CmdWord)
    (h : w.toNat / 256 = 0 ∨ 4 ≤ w.toNat / 256 ∨ ((w.toNat / 256 = 1 ∨ w.toNat / 256 = 3) ∧ w.toNat % 256 ≠ 0)) :
    ∃ why, decode w = .error why := by
  cases hd : decode w with
  | error why => exact ⟨why, rfl⟩
  | ok i =>
    have := (exists_decode_ok_iff_toNat w).1 ⟨i, hd⟩
    omega

/-! ### The step at a waiting word -/

theorem step_of_decode_ok (s : State) (w : CmdWord) (rest : List HostEvent) (i : Instr)
    (h : s.pending = .command w :: rest) (hd : decode w = .ok i) :
    step s = exec i { s with pending := rest } := by
  simp only [step, State.nextEvent_cons s _ _ h, hd]

/-- The ILLEGAL command leaves the engine and the host's list (R58, 60_exceptions.md R102). -/
theorem State.takeIllegal_eq (s : State) :
    s.takeIllegal = { s with responses := s.responses ++ [⟨.errIllegal, []⟩], faultMark := true } := by
  simp [State.takeIllegal, State.raiseErr, State.respond]

/-- Every command gives one response: the digest if it is FINALIZE and the code is OK, else no payload (R55). -/
theorem exec_answers_once (i : Instr) (s : State) :
    ∃ (t : State) (r : Response), exec i s = .next t ∧ t.pending = s.pending ∧ t.responses = s.responses ++ [r] ∧
      (if i = .finalize ∧ r.code = .ok then r.payload = digestBytes t.engine.h ∧ r.payload.length = 20
       else r.payload = []) := by
  obtain ⟨c, hc, -, h⟩ | ⟨rfl, h⟩ | ⟨d, rfl, -, -, h⟩ | ⟨rfl, -, h⟩ := exec_cases i s
  · have hne : c ≠ .ok := by rintro rfl; simp at hc
    exact ⟨_, ⟨c, []⟩, h, rfl, rfl, by simp [hne]⟩
  · exact ⟨_, ⟨.ok, []⟩, h, rfl, rfl, by simp⟩
  · exact ⟨_, ⟨.ok, []⟩, h, rfl, rfl, by simp⟩
  · exact ⟨_, ⟨.ok, digestBytes s.engine.pad.h⟩, h, rfl, rfl, by simp⟩

/-! ### The obligations of 30_encoding.md -/

/-- Settles O3: a reserved word decodes to no command, so the step is `takeIllegal`; the legal words are those of
`exists_decode_ok_iff`. -/
theorem reservedWordsAnswerIllegal : Obligations.ReservedWordsAnswerIllegal := by
  refine ⟨?_, ?_, ?_, rfl⟩
  · intro s w rest hp hw
    obtain ⟨why, hd⟩ := exists_decode_error_of_reserved w hw
    rw [step_of_illegal s w rest why hp hd, State.takeIllegal_eq]
  · intro w hop
    rw [exists_decode_ok_iff_toNat, ← BitVec.toNat_inj, BitVec.toNat_ofNat]
    omega
  · intro w hop
    rw [exists_decode_ok_iff_toNat, ← BitVec.toNat_inj, BitVec.toNat_ofNat]
    omega

/-- Settles O12: an ILLEGAL word answers through `takeIllegal`, every other word through `exec_answers_once`. -/
theorem everyCommandAnswersOnce : Obligations.EveryCommandAnswersOnce := by
  intro s w rest hp
  cases hd : decode w with
  | error why => exact ⟨_, ⟨.errIllegal, []⟩, step_of_illegal s w rest why hp hd, rfl, rfl, by simp⟩
  | ok i =>
    rw [step_of_decode_ok s w rest i hp hd]
    simp only [eq_finalizeWord_iff w i hd]
    exact exec_answers_once i { s with pending := rest }

end Sys2Proof.Machine
end

section
/-! SUPPORT. ABSORB's checks and its absorb step (41_absorb.md R66, R68, R69). -/

namespace Sys2Proof.Machine

/-! ### The responses as whole states -/

theorem State.raiseErr_of_ne_ok (s : State) (c : ResponseCode) (h : c ≠ .ok) :
    s.raiseErr c = { s with responses := s.responses ++ [⟨c, []⟩], faultMark := true } := by
  simp [State.raiseErr, State.respond, h]

theorem State.respond_ok (s : State) (p : List Byte) :
    s.respond .ok p = { s with responses := s.responses ++ [⟨.ok, p⟩] } := by
  simp [State.respond]

/-! ### The length check and the block count -/

theorem Engine.lengthFull_eq_false_iff (e : Engine) :
    e.lengthFull = false ↔ ¬(e.blkcnt.toNat = 2 ^ 55 - 1 ∧ e.cur.toNat = 63) := by
  rw [Bool.eq_false_iff]
  exact not_congr e.lengthFull_iff

/-- R69: the count goes up by 1 modulo 2^55. -/
theorem Engine.blockFull_blkcnt_eq_ofNat (e : Engine) :
    e.blockFull.blkcnt = BitVec.ofNat 55 ((e.blkcnt.toNat + 1) % 2 ^ 55) := by
  apply BitVec.eq_of_toNat_eq
  simp

/-- R69: the count does not wrap where R66's length check lets the byte through. -/
theorem Engine.le_absorbStep_blkcnt (e : Engine) (d : Byte) (hf : e.lengthFull = false) :
    e.blkcnt.toNat ≤ (e.absorbStep d).blkcnt.toNat := by
  have hcur := e.cur.isLt
  by_cases hc : e.cur.toNat = 63
  · have hlt : e.blkcnt.toNat + 1 < 2 ^ 55 := by
      have hroom := e.lengthFull_eq_false_iff.1 hf
      have := e.blkcnt.isLt
      omega
    rw [Engine.absorbStep_of_full e d hc, Engine.blockFull_blkcnt_eq_ofNat, Engine.store_blkcnt,
      Nat.mod_eq_of_lt hlt, BitVec.toNat_ofNat, Nat.mod_eq_of_lt hlt]
    exact Nat.le_succ _
  · rw [Engine.absorbStep_of_lt e d (by omega)]

theorem exec_absorb_blkcnt_le (d : Byte) (s t : State) (h : exec (.absorb d) s = .next t) :
    s.engine.blkcnt.toNat ≤ t.engine.blkcnt.toNat := by
  obtain ⟨c, -, -, hc⟩ | ⟨hi, -⟩ | ⟨b, -, -, hf, hb⟩ | ⟨hi, -⟩ := exec_cases (.absorb d) s
  · rw [hc] at h
    cases h
    exact Nat.le_refl _
  · cases hi
  · rw [hb] at h
    cases h
    exact Engine.le_absorbStep_blkcnt s.engine b hf
  · cases hi

/-! ### The obligations of 41_absorb.md -/

/-- Settles O19: an ILLEGAL word is `takeIllegal`; ABSORB has one law for each answer of its two checks. -/
theorem absorbChecksThenStores : Obligations.AbsorbChecksThenStores := by
  refine ⟨?_, fun d s => ⟨?_, ?_, ?_⟩⟩
  · intro s w rest why hp hd
    exact ⟨_, step_of_illegal s w rest why hp hd, rfl⟩
  · intro hphase
    rw [exec_absorb_of_finalized d s hphase, State.raiseErr_of_ne_ok s _ (by decide)]
  · intro hphase hfull
    have hf : s.engine.lengthFull = true := s.engine.lengthFull_iff.2 hfull
    rw [exec_absorb_of_lengthFull d s hphase hf, State.raiseErr_of_ne_ok s _ (by decide)]
  · intro hphase hroom
    have hf : s.engine.lengthFull = false := s.engine.lengthFull_eq_false_iff.2 hroom
    rw [exec_absorb_of_active d s hphase hf, State.respond_ok]

/-- Settles O20: the two cases of the absorb step, with the count of `blockFull_blkcnt_eq_ofNat`; the length check keeps
it from wrapping. -/
theorem absorbStepStoresAndCompresses : Obligations.AbsorbStepStoresAndCompresses := by
  refine ⟨Engine.absorbStep_of_lt, ?_, exec_absorb_blkcnt_le⟩
  intro e d hc
  have hcount := (e.store d).blockFull_blkcnt_eq_ofNat
  simp only [Engine.absorbStep_of_full e d hc, Engine.blockFull, Engine.store, hc] at hcount ⊢
  rw [hcount]

end Sys2Proof.Machine
end

section
/-! SUPPORT. The schedule word by word (42_compress.md R74, R75). -/

namespace Sys2Proof.Machine

/-- R74: the first sixteen words. -/
theorem schedule_getElem?_of_lt (block : Block) (i : Nat) (hi : i < 16) :
    (schedule block)[i]? = some (be32 (block[4 * i]'(by omega)) (block[4 * i + 1]'(by omega))
      (block[4 * i + 2]'(by omega)) (block[4 * i + 3]'(by omega))) := by
  have hlen : i < (wordsBE block.toList).length := by simpa [wordsBE_length] using hi
  rw [schedule, extendSchedule_getElem?_of_lt _ _ _ hlen, wordsBE_getElem? _ _ (by simp; omega)]
  simp only [Vector.getElem_toList]

/-- Every word that extends a list of sixteen or more comes from the words before it. -/
theorem extendSchedule_getD_of_le (n : Nat) (ws : List Word) (i : Nat) (h16 : 16 ≤ ws.length) (hle : ws.length ≤ i)
    (hlt : i < ws.length + n) :
    (extendSchedule n ws).getD i 0#32 =
      rotl ((extendSchedule n ws).getD (i - 3) 0#32 ^^^ (extendSchedule n ws).getD (i - 8) 0#32
        ^^^ (extendSchedule n ws).getD (i - 14) 0#32 ^^^ (extendSchedule n ws).getD (i - 16) 0#32) 1 := by
  induction n generalizing ws with
  | zero => omega
  | succ n ih =>
    by_cases hi : i = ws.length
    · subst hi
      rw [extendSchedule_getD_length, nextScheduleWord]
      congr 1
      iterate 4 rw [extendSchedule_getD_of_lt (n + 1) ws _ (by omega)]
    · exact ih (ws ++ [nextScheduleWord ws]) (by simp; omega) (by simp; omega) (by simp; omega)

/-- R75: the words from 16 on. -/
theorem schedule_getD_of_le (block : Block) (i : Nat) (h16 : 16 ≤ i) (h80 : i < 80) :
    (schedule block).getD i 0#32 =
      ((schedule block).getD (i - 3) 0#32 ^^^ (schedule block).getD (i - 8) 0#32
        ^^^ (schedule block).getD (i - 14) 0#32 ^^^ (schedule block).getD (i - 16) 0#32).rotateLeft 1 := by
  have hlen : (wordsBE block.toList).length = 16 := by simp [wordsBE_length]
  rw [← rotl_eq_rotateLeft _ 1 (by decide)]
  exact extendSchedule_getD_of_le 64 _ i (by omega) (by omega) (by omega)

theorem schedule_getElem?_eq_some_getD (block : Block) (i : Nat) (h : i < 80) :
    (schedule block)[i]? = some ((schedule block).getD i 0#32) := by
  rw [← schedule_length block] at h
  rw [List.getElem?_eq_getElem h, List.getD_eq_getElem _ _ h]

/-! ### The obligations of 42_compress.md -/

/-- Settles O28: each word is read by its own law, R74's below 16 and R75's from 16 on. -/
theorem scheduleFollowsTheRecurrence : Obligations.ScheduleFollowsTheRecurrence := by
  intro block
  refine ⟨schedule_length block, schedule_getElem?_of_lt block, ?_⟩
  intro i h16 h80
  have hget (j : Nat) (hj : j ≤ i) := schedule_getElem?_eq_some_getD block j (by omega)
  refine ⟨_, _, _, _, hget (i - 3) (by omega), hget (i - 8) (by omega), hget (i - 14) (by omega),
    hget (i - 16) (by omega), ?_⟩
  rw [hget i (le_refl i), schedule_getD_of_le block i h16 h80]

end Sys2Proof.Machine
end

section
/-! SUPPORT. FINALIZE on the whole state: the length it pads with, the bytes it answers, its illegal neighbours (43_finalize.md R89, R90, R95, R97). -/

namespace Sys2Proof.Machine

/-! ### The length field -/

/-- R90: 64 bits hold L without wrapping. -/
theorem Engine.messageBits_toNat (e : Engine) :
    e.messageBits.toNat = 512 * e.blkcnt.toNat + 8 * e.cur.toNat := by
  have := e.blkcnt.isLt
  have := e.cur.isLt
  simp [Engine.messageBits]
  omega

theorem Engine.messageBits_eq_ofNat (e : Engine) :
    e.messageBits = BitVec.ofNat 64 (512 * e.blkcnt.toNat + 8 * e.cur.toNat) := by
  rw [← e.messageBits_toNat, BitVec.ofNat_toNat, BitVec.setWidth_eq]

/-! ### The digest byte by byte -/

theorem bytesBE_getElem? {w : Nat} (v : BitVec w) (n j : Nat) (h : j < n) :
    (bytesBE v n)[j]? = some (v.extractLsb' (8 * (n - 1 - j)) 8) := by
  have hj : j < (bytesBE v n).length := by rwa [bytesBE_length]
  rw [List.getElem?_eq_getElem hj, ← List.getD_eq_getElem _ 0#8 hj, bytesBE_getD v n j h]

/-- Words written big-endian one after the other: byte 4i + j is byte j of word i. -/
theorem flatMap_bytesBE_getElem? (ws : List Word) (i j : Nat) (hj : j < 4) :
    (ws.flatMap fun w => bytesBE w 4)[4 * i + j]? = (ws[i]?).map fun w => w.extractLsb' (24 - 8 * j) 8 := by
  induction ws generalizing i with
  | nil => rfl
  | cons w ws ih =>
    rw [List.flatMap_cons]
    cases i with
    | zero =>
      rw [List.getElem?_append_left (by simp; omega), Nat.mul_zero, Nat.zero_add, bytesBE_getElem? w 4 j hj,
        show 8 * (4 - 1 - j) = 24 - 8 * j by omega]
      rfl
    | succ i =>
      rw [List.getElem?_append_right (by simp; omega), bytesBE_length, show 4 * (i + 1) + j - 4 = 4 * i + j by omega,
        ih i, List.getElem?_cons_succ]

theorem digestBytes_eq_flatMap (h : Acc) :
    digestBytes h = [h.h0, h.h1, h.h2, h.h3, h.h4].flatMap fun w => bytesBE w 4 := by
  simp [digestBytes]

/-! ### The word of FINALIZE and its neighbours -/

/-- R58 through `cmdWord`: OP 0x03 with nonzero DATA is no command. -/
theorem exists_decode_error_of_finalizeOp (d : Byte) (h : d ≠ 0x00#8) :
    ∃ why, decode (cmdWord 0x03#8 d) = .error why := by
  have hd : d.toNat ≠ 0 := fun h0 => h (BitVec.eq_of_toNat_eq h0)
  have hw : (cmdWord 0x03#8 d).toNat = 768 + d.toNat := cmdWord_toNat 0x03#8 d
  have := d.isLt
  exact exists_decode_error_of_reserved _ (by omega)

/-! ### The obligations of 43_finalize.md -/

/-- Settles O39: byte 4i + j of the digest is byte j of the word H[i], by `flatMap_bytesBE_getElem?`. -/
theorem digestIsTheAccumulatorBigEndian : Obligations.DigestIsTheAccumulatorBigEndian := by
  intro s hphase
  refine ⟨_, digestBytes s.engine.pad.h, exec_finalize_of_active s hphase, rfl, digestBytes_length _, rfl, ?_⟩
  intro i j _ hj
  rw [digestBytes_eq_flatMap, flatMap_bytesBE_getElem? _ i j hj]
  rfl

/-- Settles O33: FINALIZE has one law for each PHASE; L is the number of `messageBits_eq_ofNat`, and a neighbour of its
word decodes to no command. -/
theorem finalizePadsThenAnswersTheDigest : Obligations.FinalizePadsThenAnswersTheDigest := by
  refine ⟨?_, ?_, rfl, ?_⟩
  · rintro s e hphase rfl
    rw [exec_finalize_of_active s hphase, State.respond_ok, Engine.pad, Engine.messageBits_eq_ofNat]
    rfl
  · intro s hphase
    rw [exec_finalize_of_finalized s hphase, State.raiseErr_of_ne_ok s _ (by decide)]
  · intro s d rest hd hp
    obtain ⟨why, hwhy⟩ := exists_decode_error_of_finalizeOp d hd
    rw [step_of_illegal s _ rest why hp hwhy, State.takeIllegal_eq]

end Sys2Proof.Machine
end

section
/-! SUPPORT. The engine beside the bytes it has absorbed, and FINALIZE's digest as the hash of them (43_finalize.md R89 to R95). -/

namespace Sys2Proof.Machine

/-! ### The engine after a byte sequence -/

/-- H, CUR and the filled part of BUF are what the absorb step leaves after the bytes `m`, from reset on. Unlike
`Engine.Holds` it does not read BLKCNT, which wraps modulo 2^55 in PAD at the length limit (10_state.md R17). -/
structure Engine.Absorbed (e : Engine) (m : List Byte) : Prop where
  cur : e.cur.toNat = m.length % 64
  h : e.h = hashBlocks (m.length / 64) Acc.iv m
  filled : ∀ (j : Nat) (hj : j < 64), j < e.cur.toNat → m[64 * (m.length / 64) + j]? = some e.buf[j]

theorem Engine.Holds.absorbed {e : Engine} {m : List Byte} (hm : e.Holds m) : e.Absorbed m := by
  have hlen : m.length = 64 * e.blkcnt.toNat + e.cur.toNat := hm.length
  have := e.cur.isLt
  have hdiv : m.length / 64 = e.blkcnt.toNat := by omega
  refine ⟨by omega, ?_, ?_⟩
  · rw [hdiv, hm.blocks]
  · rw [hdiv]
    exact hm.filled

/-- The stored byte is the next of the message, the bytes before it stay. -/
theorem Engine.Absorbed.store_filled {e : Engine} {m : List Byte} (hm : e.Absorbed m) (d : Byte) (j : Nat)
    (hj : j < 64) (hle : j ≤ e.cur.toNat) :
    (m ++ [d])[64 * (m.length / 64) + j]? = some (e.store d).buf[j] := by
  have hcur := hm.cur
  simp only [Engine.store_buf, Vector.getElem_set]
  by_cases hlast : e.cur.toNat = j
  · rw [if_pos hlast, show 64 * (m.length / 64) + j = m.length by omega, List.getElem?_concat_length]
  · rw [if_neg hlast, List.getElem?_append_left (by omega)]
    exact hm.filled j hj (by omega)

/-- R68, R69: a byte that does not fill the block leaves H, one that does compresses the block it ends. -/
theorem Engine.Absorbed.absorbStep {e : Engine} {m : List Byte} (hm : e.Absorbed m) (d : Byte) :
    (e.absorbStep d).Absorbed (m ++ [d]) := by
  have hcur := hm.cur
  have hkeep : hashBlocks (m.length / 64) Acc.iv (m ++ [d]) = e.h := by
    rw [hashBlocks_append _ _ _ _ (by omega), hm.h]
  by_cases hc : e.cur.toNat = 63
  · have hdiv : (m ++ [d]).length / 64 = m.length / 64 + 1 := by simp; omega
    have hblock : firstBlock ((m ++ [d]).drop (64 * (m.length / 64))) = (e.store d).buf := by
      apply Vector.ext
      intro j hj
      rw [firstBlock_getElem, List.getD_eq_getElem?_getD, List.getElem?_drop,
        hm.store_filled d j hj (by omega), Option.getD_some]
    rw [Engine.absorbStep_of_full e d hc]
    refine ⟨by simp; omega, ?_, fun j _ hlt => absurd hlt (Nat.not_lt_zero j)⟩
    rw [hdiv, hashBlocks_succ, hkeep, hblock, Engine.blockFull_h, Engine.store_h]
  · have hdiv : (m ++ [d]).length / 64 = m.length / 64 := by simp; omega
    have hnext : (BitVec.ofNat 6 (e.cur.toNat + 1)).toNat = e.cur.toNat + 1 := by simp; omega
    rw [Engine.absorbStep_of_lt e d (by omega)]
    refine ⟨?_, ?_, fun j hj hlt => ?_⟩
    · simp only [hnext, List.length_append, List.length_singleton]
      omega
    · rw [hdiv, hkeep]
    · simp only [hnext] at hlt
      rw [hdiv]
      exact hm.store_filled d j hj (by omega)

theorem Engine.Absorbed.absorbBytes {e : Engine} {m : List Byte} (hm : e.Absorbed m) (bs : List Byte) :
    (e.absorbBytes bs).Absorbed (m ++ bs) := by
  induction bs generalizing e m with
  | nil => rwa [List.append_nil]
  | cons b bs ih =>
    rw [Engine.absorbBytes_cons, List.append_cons]
    exact ih (hm.absorbStep b)

/-! ### The padded message -/

theorem Engine.Holds.length_lt {e : Engine} {m : List Byte} (hm : e.Holds m) : m.length < 2 ^ 61 := by
  have := e.totalLength_le
  rw [hm.length]
  omega

/-- R90: the length field of the message is the L that PAD captures. -/
theorem Engine.Holds.lengthField_eq {e : Engine} {m : List Byte} (hm : e.Holds m) :
    lengthField m.length = e.messageBits := by
  apply BitVec.eq_of_toNat_eq
  rw [lengthField_toNat _ hm.length_lt, e.messageBits_toNat, hm.length, Engine.totalLength]
  omega

theorem padZeros_eq_mod (c : BitVec 6) : padZeros c = (119 - c.toNat) % 64 := by
  have := c.isLt
  simp [padZeros, BitVec.toNat_sub]
  omega

/-- R91: PAD absorbs exactly the padding of the message. -/
theorem Engine.Holds.padMessage_eq {e : Engine} {m : List Byte} (hm : e.Holds m) :
    padMessage m = m ++ padBytes e.cur e.messageBits := by
  rw [padMessage, padBytes, hm.lengthField_eq, padZeros_eq_mod, hm.absorbed.cur]

/-- R12, R95: what FINALIZE answers on an engine that holds a message is the message's digest. -/
theorem Engine.Holds.digestBytes_pad {e : Engine} {m : List Byte} (hm : e.Holds m) :
    digestBytes e.pad.h = hashMessage m := by
  rw [hashMessage, hm.padMessage_eq, Engine.pad, (hm.absorbed.absorbBytes _).h]

end Sys2Proof.Machine
end

section
/-! SUPPORT. What a step adds to the responses, and the errors (60_exceptions.md R102 to R106). -/

namespace Sys2Proof.Machine

/-! ### What a step answers -/

/-- A command answers an error, with the engine as it was and the fault mark set, or OK (R106, R115). -/
theorem exec_answer_cases (i : Instr) (s t : State) (h : exec i s = .next t) :
    (∃ c, c ≠ .ok ∧ t.responses = s.responses ++ [⟨c, []⟩] ∧ t.engine = s.engine ∧ t.faultMark = true) ∨
    (∃ p, t.responses = s.responses ++ [⟨.ok, p⟩] ∧ t.faultMark = s.faultMark) := by
  obtain ⟨c, hc, -, ht⟩ | ⟨-, ht⟩ | ⟨d, -, -, -, ht⟩ | ⟨-, -, ht⟩ := exec_cases i s <;> cases h.symm.trans ht
  · have hne : c ≠ .ok := by rintro rfl; simp at hc
    exact .inl ⟨c, hne, rfl, rfl, by simp [hne]⟩
  · exact .inr ⟨[], rfl, by simp⟩
  · exact .inr ⟨[], rfl, by simp⟩
  · exact .inr ⟨digestBytes s.engine.pad.h, rfl, by simp⟩

/-- A step answers nothing (no event, a reset), an error that leaves the engine as it was, or OK. -/
theorem step_answer_cases (s t : State) (h : step s = .next t) :
    (t.responses = s.responses ∧ t.faultMark = s.faultMark) ∨
    (∃ c, c ≠ .ok ∧ t.responses = s.responses ++ [⟨c, []⟩] ∧ t.engine = s.engine ∧ t.faultMark = true) ∨
    (∃ p, t.responses = s.responses ++ [⟨.ok, p⟩] ∧ t.faultMark = s.faultMark) := by
  cases hp : s.pending with
  | nil =>
    cases h.symm.trans (step_of_idle s hp)
    exact .inl ⟨rfl, rfl⟩
  | cons ev rest =>
    cases ev with
    | reset =>
      cases h.symm.trans (step_of_reset s rest hp)
      exact .inl ⟨rfl, rfl⟩
    | command w =>
      cases hd : decode w with
      | error why =>
        cases h.symm.trans (step_of_illegal s w rest why hp hd)
        exact .inr (.inl ⟨.errIllegal, by decide, rfl, rfl, by simp⟩)
      | ok i =>
        rw [step_of_decode_ok s w rest i hp hd] at h
        exact .inr (exec_answer_cases i { s with pending := rest } t h)

/-! ### The obligations of 60_exceptions.md -/

/-- Settles O44: ABSORB's length check answers before anything is written, so FINALIZE pads the engine that held the
message. -/
theorem lengthLimitAnswersErrLength : Obligations.LengthLimitAnswersErrLength := by
  refine ⟨rfl, fun d s hphase hblk hcur => ?_⟩
  have hfull : s.engine.lengthFull = true := s.engine.lengthFull_iff.2 ⟨hblk, hcur⟩
  refine ⟨s.raiseErr .errLength, _, exec_absorb_of_lengthFull d s hphase hfull, rfl, rfl, rfl, by simp,
    exec_finalize_of_active _ hphase, fun m hm => ⟨?_, ?_⟩⟩
  · rw [hm.length, ← Engine.lengthFull_iff_totalLength, hfull]
  · rw [State.respond_responses, State.raiseErr_engine, hm.digestBytes_pad]

/-- Settles O45: an ILLEGAL word is decided by `decode` alone; a legal one is one of the three commands, and each has one
law for every answer of its checks. -/
theorem firstErrorThatAppliesIsAnswered : Obligations.FirstErrorThatAppliesIsAnswered := by
  intro s w rest hp
  have hlegal := exists_decode_ok_iff_toNat w
  cases hd : decode w with
  | error why =>
    have hreserved : ¬(w.toNat / 256 = 2 ∨ w.toNat = 0x0100 ∨ w.toNat = 0x0300) := by
      simp only [hd, reduceCtorEq, exists_false, false_iff] at hlegal
      omega
    exact ⟨_, ⟨.errIllegal, []⟩, step_of_illegal s w rest why hp hd, rfl, by rw [if_pos hreserved]⟩
  | ok i =>
    rw [step_of_decode_ok s w rest i hp hd]
    obtain ⟨rfl, rfl⟩ | ⟨d, rfl, hw⟩ | ⟨rfl, rfl⟩ := decode_ok_cases w i hd
    · exact ⟨_, ⟨.ok, []⟩, exec_init _, rfl, by simp⟩
    · have hop : w.toNat / 256 = 2 := by have := d.isLt; omega
      have hinit : w.toNat ≠ 0x0100 := by omega
      cases hphase : s.engine.phase with
      | finalized =>
        exact ⟨_, ⟨.errFinalized, []⟩, exec_absorb_of_finalized d _ hphase, rfl, by simp [hop, hinit]⟩
      | active =>
        cases hfull : s.engine.lengthFull with
        | true =>
          have hlimit := s.engine.lengthFull_iff.1 hfull
          exact ⟨_, ⟨.errLength, []⟩, exec_absorb_of_lengthFull d _ hphase hfull, rfl, by simp [hop, hlimit]⟩
        | false =>
          have hroom := s.engine.lengthFull_eq_false_iff.1 hfull
          exact ⟨_, ⟨.ok, []⟩, exec_absorb_of_active d _ hphase hfull, rfl, by simpa [hop] using hroom⟩
    · cases hphase : s.engine.phase with
      | finalized => exact ⟨_, ⟨.errFinalized, []⟩, exec_finalize_of_finalized _ hphase, rfl, by simp⟩
      | active => exact ⟨_, ⟨.ok, _⟩, exec_finalize_of_active _ hphase, rfl, by simp⟩

/-- Settles O46: of the answers of `step_answer_cases` only an error adds a response that is not OK. -/
theorem errorsLeaveTheEngineUnchanged : Obligations.ErrorsLeaveTheEngineUnchanged := by
  intro s t r h hr hcode
  obtain ⟨hnone, -⟩ | ⟨c, -, herr, heng, -⟩ | ⟨p, hok, -⟩ := step_answer_cases s t h
  · simp [hnone] at hr
  · obtain rfl : ⟨c, []⟩ = r := by simpa [herr] using hr
    exact ⟨rfl, heng⟩
  · obtain rfl : ⟨.ok, p⟩ = r := by simpa [hok] using hr
    exact absurd rfl hcode

/-- Settles O43: the PHASE check answers before anything is written. -/
theorem useAfterFinalizeAnswersErrFinalized : Obligations.UseAfterFinalizeAnswersErrFinalized := by
  refine ⟨rfl, fun s hphase => ⟨fun d => ?_, ?_⟩⟩
  · rw [exec_absorb_of_finalized d s hphase, State.raiseErr_of_ne_ok s _ (by decide)]
  · rw [exec_finalize_of_finalized s hphase, State.raiseErr_of_ne_ok s _ (by decide)]

end Sys2Proof.Machine
end

section
/-! SUPPORT. PHASE and the response, for every command word in every phase (70_reset_and_hazards.md R119). -/

namespace Sys2Proof.Machine

/-- R66's length check lets a byte through exactly below T = 2^61 - 1. -/
theorem Engine.lengthFull_eq_false_iff_totalLength_lt (e : Engine) :
    e.lengthFull = false ↔ e.totalLength < 2 ^ 61 - 1 := by
  rw [Bool.eq_false_iff, Ne, e.lengthFull_iff_totalLength]
  exact ⟨e.totalLength_le.lt_of_ne, Nat.ne_of_lt⟩

/-! ### The obligation of 70_reset_and_hazards.md -/

/-- Settles O48: an ILLEGAL word is `takeIllegal`; each command has one law for every answer of its checks, which is the
row of R119 that its word, PHASE and T select. -/
theorem lifecycleFollowsTheTable : Obligations.LifecycleFollowsTheTable := by
  intro s w rest hp
  cases hd : decode w with
  | error why => exact ⟨_, ⟨.errIllegal, []⟩, step_of_illegal s w rest why hp hd, rfl, by simp⟩
  | ok i =>
    rw [step_of_decode_ok s w rest i hp hd]
    cases i with
    | init => exact ⟨_, ⟨.ok, []⟩, exec_init _, rfl, by simp⟩
    | absorb d =>
      cases hphase : s.engine.phase with
      | finalized => exact ⟨_, ⟨.errFinalized, []⟩, exec_absorb_of_finalized d _ hphase, rfl, by simp⟩
      | active =>
        cases hfull : s.engine.lengthFull with
        | true =>
          have hlimit := s.engine.lengthFull_iff_totalLength.1 hfull
          exact ⟨_, ⟨.errLength, []⟩, exec_absorb_of_lengthFull d _ hphase hfull, rfl, by simp [hlimit]⟩
        | false =>
          have hroom := s.engine.lengthFull_eq_false_iff_totalLength_lt.1 hfull
          exact ⟨_, ⟨.ok, []⟩, exec_absorb_of_active d _ hphase hfull, rfl, by simpa [hphase] using hroom.ne⟩
    | finalize =>
      cases hphase : s.engine.phase with
      | finalized => exact ⟨_, ⟨.errFinalized, []⟩, exec_finalize_of_finalized _ hphase, rfl, by simp⟩
      | active => exact ⟨_, ⟨.ok, digestBytes s.engine.pad.h⟩, exec_finalize_of_active _ hphase, rfl, by simp⟩

end Sys2Proof.Machine
end

section
/-! SUPPORT. Decode against encode, both ways, and the decoder over its fields (30_encoding.md R52, R56 to R58). -/

namespace Sys2Proof.Machine

/-! ### The fields of a word -/

theorem opField_eq_ofNat (w : CmdWord) : opField w = BitVec.ofNat 8 (w.toNat / 256) := by
  rw [← opField_toNat, BitVec.ofNat_toNat, BitVec.setWidth_eq]

theorem dataField_eq_ofNat (w : CmdWord) : dataField w = BitVec.ofNat 8 (w.toNat % 256) := by
  rw [← dataField_toNat, BitVec.ofNat_toNat, BitVec.setWidth_eq]

@[simp] theorem opField_cmdWord (op data : Byte) : opField (cmdWord op data) = op := by
  have := data.isLt
  apply BitVec.eq_of_toNat_eq
  rw [opField_toNat, cmdWord_toNat]
  omega

@[simp] theorem dataField_cmdWord (op data : Byte) : dataField (cmdWord op data) = data := by
  have := data.isLt
  apply BitVec.eq_of_toNat_eq
  rw [dataField_toNat, cmdWord_toNat]
  omega

/-! ### Decode after encode -/

/-- Every command's word has that command as its meaning, for every operand (R52, R58). -/
@[simp] theorem decode_encode (i : Instr) : decode (encode i) = .ok i := by
  cases i <;> simp [encode, decode]

theorem decode_eq_ok_iff (w : CmdWord) (i : Instr) : decode w = .ok i ↔ encode i = w :=
  ⟨encode_of_decode_ok w i, fun h => h ▸ decode_encode i⟩

theorem encode_inj (i j : Instr) : encode i = encode j ↔ i = j := by
  refine ⟨fun h => ?_, congrArg encode⟩
  simpa using congrArg decode h

/-- The row of ABSORB is OP = 0x02: its mask keeps OP and drops DATA (R52). -/
theorem opField_of_absorbRow (w : CmdWord) (h : w &&& 0xFF00#16 = 0x0200#16) : opField w = 0x02#8 := by
  have hmask : opField (w &&& 0xFF00#16) = opField w &&& 0xFF#8 := BitVec.extractLsb'_and
  rw [h] at hmask
  rw [← BitVec.and_allOnes (x := opField w)]
  exact hmask.symm

/-! ### The obligations of 30_encoding.md on words and codes -/

/-- Settles O1: a word that decodes is its command's word (`encode_of_decode_ok`), and that word decodes to the command
(`decode_encode`). -/
theorem decodeAndEncodeAgree : Obligations.DecodeAndEncodeAgree := decode_eq_ok_iff

/-- Settles O2: the decoder's conditions on OP and DATA are conditions on the quotient and the remainder by 256. -/
theorem everyWordDecodesByOpAndData : Obligations.EveryWordDecodesByOpAndData := by
  refine ⟨fun w => ?_, fun s w rest why hp hd => ?_⟩
  · have hop (n : Nat) (hn : n < 256) : opField w = BitVec.ofNat 8 n ↔ w.toNat / 256 = n := by
      rw [← BitVec.toNat_inj, opField_toNat, BitVec.toNat_ofNat, Nat.mod_eq_of_lt hn]
    have hdata : dataField w = 0x00#8 ↔ w.toNat % 256 = 0 := by
      rw [← BitVec.toNat_inj, dataField_toNat, BitVec.toNat_ofNat, Nat.zero_mod]
    simp only [decode, hop 1 (by decide), hop 2 (by decide), hop 3 (by decide), hdata, ← opField_eq_ofNat,
      ← dataField_eq_ofNat]
    by_cases h1 : w.toNat / 256 = 1
    · by_cases h0 : w.toNat % 256 = 0 <;> simp [h1, h0]
    · by_cases h2 : w.toNat / 256 = 2
      · simp [h2]
      · by_cases h3 : w.toNat / 256 = 3
        · by_cases h0 : w.toNat % 256 = 0 <;> simp [h3, h0]
        · simp [h1, h2, h3]
  · rw [step_of_illegal s w rest why hp hd, State.takeIllegal_eq]

/-- Settles O4: a word of a command lies in its row (`Laws.EncodingRow`); conversely the full mask leaves only the one
word, and ABSORB's mask leaves OP = 0x02. -/
theorem opcodeRowsSelectTheirWords : Obligations.OpcodeRowsSelectTheirWords := by
  have hfull (w : CmdWord) : w &&& 0xFFFF#16 = w := BitVec.and_allOnes
  intro w
  refine ⟨?_, ⟨?_, ?_⟩, ?_, ?_⟩
  · rw [hfull, decode_eq_ok_iff, eq_comm]
    rfl
  · rintro ⟨d, hd⟩
    rw [← encode_of_decode_ok w _ hd]
    exact (Laws.EncodingRow.absorb d).2
  · intro hrow
    refine ⟨dataField w, decode_of_op_two w ?_⟩
    rw [← opField_toNat, opField_of_absorbRow w hrow]
    rfl
  · intro d hd
    rw [← encode_of_decode_ok w _ hd, encode_absorb_eq_or]
  · rw [hfull, decode_eq_ok_iff, eq_comm]
    rfl

/-- Settles O5: each of the nine words is read by the decoder. -/
theorem sampleWordsDecode : Obligations.SampleWordsDecode := by
  refine ⟨?_, ?_, ?_, ?_, ?_, ?_, ?_, ?_, ?_⟩ <;> rfl

/-- Settles O6: the table of R56, one code after the other. -/
theorem responseCodesHaveTheirValues : Obligations.ResponseCodesHaveTheirValues := by
  refine ⟨rfl, rfl, rfl, rfl, fun c => ?_⟩
  cases c <;> decide

end Sys2Proof.Machine
end

section
/-! SUPPORT. The step by the event it takes, and runs over the host's list (20_memory.md R44, 70_reset_and_hazards.md R126). -/

namespace Sys2Proof.Machine

/-! ### One step -/

/-- The four kinds of step: nothing waits, a reset, an ILLEGAL word, a command. -/
theorem step_cases (s : State) :
    (s.pending = [] ∧ step s = .next s) ∨
    (∃ rest, s.pending = .reset :: rest ∧ step s = .next (State.takeReset { s with pending := rest })) ∨
    (∃ w rest why, s.pending = .command w :: rest ∧ decode w = .error why ∧
      step s = .next (State.takeIllegal { s with pending := rest })) ∨
    (∃ w rest i, s.pending = .command w :: rest ∧ decode w = .ok i ∧ step s = exec i { s with pending := rest }) := by
  cases hp : s.pending with
  | nil => exact .inl ⟨rfl, step_of_idle s hp⟩
  | cons ev rest =>
    cases ev with
    | reset => exact .inr (.inl ⟨rest, rfl, step_of_reset s rest hp⟩)
    | command w =>
      cases hd : decode w with
      | error why => exact .inr (.inr (.inl ⟨w, rest, why, rfl, hd, step_of_illegal s w rest why hp hd⟩))
      | ok i => exact .inr (.inr (.inr ⟨w, rest, i, rfl, hd, step_of_decode_ok s w rest i hp hd⟩))

/-- A waiting command's own word runs it. -/
theorem step_of_encode (s : State) (i : Instr) (rest : List HostEvent) (h : s.pending = .command (encode i) :: rest) :
    step s = exec i { s with pending := rest } :=
  step_of_decode_ok s _ rest i h (decode_encode i)

theorem decode_of_decodeTableWord (nbits w : Nat) (i : Instr) (h : decodeTableWord nbits w = some i) :
    decode (tableWord nbits w) = .ok i := by
  cases hd : decode (tableWord nbits w) with
  | ok j => simpa [decodeTableWord, hd] using h
  | error why => simp [decodeTableWord, hd] at h

theorem exec_next_pending (i : Instr) (s t : State) (h : exec i s = .next t) : t.pending = s.pending := by
  obtain ⟨u, _, hu, hpending, -⟩ := exec_answers_once i s
  cases h.symm.trans hu
  exact hpending

/-! ### Events issued later -/

/-- A step that takes an event does not look past it (R44). -/
theorem step_append_later (s t : State) (later : List HostEvent) (hne : s.pending ≠ []) (h : step s = .next t) :
    step { s with pending := s.pending ++ later } = .next { t with pending := t.pending ++ later } := by
  obtain ⟨hp, -⟩ | ⟨rest, hp, ht⟩ | ⟨w, rest, why, hp, hd, ht⟩ | ⟨w, rest, i, hp, hd, ht⟩ := step_cases s
  · exact absurd hp hne
  · cases h.symm.trans ht
    exact step_of_reset _ (rest ++ later) (by simp [hp])
  · cases h.symm.trans ht
    exact step_of_illegal _ w (rest ++ later) why (by simp [hp]) hd
  · have hexec : exec i { s with pending := rest } = .next t := ht.symm.trans h
    rw [step_of_decode_ok _ w (rest ++ later) i (by simp [hp]) hd, exec_next_pending i _ t hexec]
    exact exec_withPending i { s with pending := rest } t (rest ++ later) hexec

/-- Each step takes one event from the list. -/
theorem step_next_pending (s t : State) (h : step s = .next t) : t.pending = s.pending.tail := by
  obtain ⟨hp, ht⟩ | ⟨rest, hp, ht⟩ | ⟨w, rest, why, hp, -, ht⟩ | ⟨w, rest, i, hp, -, ht⟩ := step_cases s
  · cases h.symm.trans ht
    rw [hp, List.tail_nil]
  · cases h.symm.trans ht
    rw [hp, State.takeReset_pending, List.tail_cons]
  · cases h.symm.trans ht
    rw [hp, State.takeIllegal_pending, List.tail_cons]
  · rw [exec_next_pending i _ t (ht.symm.trans h), hp, List.tail_cons]

theorem exists_step_next (s : State) : ∃ t, step s = .next t := by
  obtain ⟨-, ht⟩ | ⟨rest, -, ht⟩ | ⟨w, rest, why, -, -, ht⟩ | ⟨w, rest, i, -, -, ht⟩ := step_cases s
  · exact ⟨_, ht⟩
  · exact ⟨_, ht⟩
  · exact ⟨_, ht⟩
  · obtain ⟨t, -, hexec, -⟩ := exec_answers_once i { s with pending := rest }
    exact ⟨t, ht.trans hexec⟩

/-- The first step of a run, taken apart. -/
theorem run_succ_cases (n : Nat) (s t : State) (h : Host.Core.run core (n + 1) s = .next t) :
    ∃ u, step s = .next u ∧ Host.Core.run core n u = .next t := by
  obtain ⟨u, hu⟩ := exists_step_next s
  exact ⟨u, hu, (run_succ n s u hu).symm.trans h⟩

/-! ### The obligations on steps and runs -/

/-- Settles O9: the law of a waiting word, and `withFetchWord` puts its word at the head of the list. -/
theorem stepRunsTheDecodedCommand : Obligations.StepRunsTheDecodedCommand :=
  ⟨step_of_decode_ok, fun s nbits w i h => step_of_decode_ok _ _ s.pending i rfl (decode_of_decodeTableWord nbits w i h)⟩

/-- Settles O10: the law of the idle step. -/
theorem idleStepChangesNothing : Obligations.IdleStepChangesNothing := step_of_idle

/-- Settles O11: every kind of step and every command answers a next state, and each step takes one event. -/
theorem everyStepAnswersNext : Obligations.EveryStepAnswersNext := by
  refine ⟨fun s => ?_, fun i s => ?_⟩
  · obtain ⟨t, ht⟩ := exists_step_next s
    exact ⟨t, ht, step_next_pending s t ht⟩
  · obtain ⟨t, -, ht, hpending, -⟩ := exec_answers_once i s
    exact ⟨t, ht, hpending⟩

/-- Settles O13, by induction on the words: the first step adds one response (`everyCommandAnswersOnce`), the run after it
those of the other words. -/
theorem runShowsOneResponsePerWord : Obligations.RunShowsOneResponsePerWord := by
  intro ws
  induction ws with
  | nil =>
    intro s hp
    refine ⟨[], rfl, fun k hk => ?_⟩
    obtain rfl : k = 0 := Nat.le_zero.1 hk
    exact ⟨s, run_zero s, hp, (List.append_nil _).symm⟩
  | cons w ws ih =>
    intro s hp
    obtain ⟨u, r, hstep, hu, hr, -⟩ := everyCommandAnswersOnce s w _ hp
    obtain ⟨rs, hlen, hrun⟩ := ih u hu
    refine ⟨r :: rs, congrArg Nat.succ hlen, fun k hk => ?_⟩
    cases k with
    | zero => exact ⟨s, run_zero s, hp, (List.append_nil _).symm⟩
    | succ k =>
      obtain ⟨t, ht, hpending, hresponses⟩ := hrun k (Nat.le_of_succ_le_succ hk)
      refine ⟨t, (run_succ k s u hstep).trans ht, hpending, ?_⟩
      rw [hresponses, hr, List.take_succ_cons, List.append_assoc, List.singleton_append]

/-- Settles O14, by induction on the number of steps: each of them takes an event (`step_append_later`). -/
theorem laterCommandsDoNotMatter : Obligations.LaterCommandsDoNotMatter := by
  intro n
  induction n with
  | zero =>
    intro s t later _ h
    cases h
    rfl
  | succ n ih =>
    intro s t later hn h
    obtain ⟨u, hu, hrun⟩ := run_succ_cases n s t h
    have hne : s.pending ≠ [] := List.ne_nil_of_length_pos (by omega)
    have hleft : n ≤ u.pending.length := by
      rw [step_next_pending s u hu, List.length_tail]
      omega
    rw [run_succ n _ _ (step_append_later s u later hne hu)]
    exact ih u t later hleft hrun

/-- Settles O53: `systemStep` sets the one position, to that machine's next state. -/
theorem enginesShareNoState : Obligations.EnginesShareNoState := by
  intro engines k j
  refine ⟨fun hjk => ?_, fun s t hk ht => ?_⟩
  · cases hk : engines[k]? with
    | none => simp only [systemStep, hk]
    | some s =>
      obtain ⟨t, ht⟩ := exists_step_next s
      simp only [systemStep, hk, ht]
      exact List.getElem?_set_ne hjk.symm
  · simp only [systemStep, hk, ht]
    exact List.getElem?_set_self (List.getElem?_eq_some_iff.1 hk).1

end Sys2Proof.Machine
end

section
/-! SUPPORT. INIT and reset (40_init.md R61 to R64, 70_reset_and_hazards.md R116, 10_state.md R31). -/

namespace Sys2Proof.Machine

/-- R54: OP 0x01 with nonzero DATA is ILLEGAL. -/
theorem decode_initOp_of_ne_zero (d : Byte) (h : d ≠ 0x00#8) :
    decode (cmdWord 0x01#8 d) = .error (.reservedData 0x01#8 d) := by
  simp [decode, h]

/-- R98: no byte has been absorbed yet. -/
theorem Engine.fresh_holds_nil : Engine.fresh.Holds [] :=
  ⟨rfl, rfl, rfl, fun j _ hlt => absurd hlt (Nat.not_lt_zero j)⟩

/-- Among the words that decode, only 0x0100 is INIT's. -/
theorem eq_initWord_iff (w : CmdWord) (i : Instr) (h : decode w = .ok i) : w = 0x0100#16 ↔ i = .init := by
  rw [← encode_of_decode_ok w i h]
  exact encode_inj i .init

/-- A command leaves a finalized engine FINALIZED unless it is INIT (R64, 43_finalize.md R96). -/
theorem exec_phase_of_finalized (i : Instr) (s t : State) (hphase : s.engine.phase = .finalized)
    (h : exec i s = .next t) : t.engine.phase = .active ↔ i = .init := by
  obtain ⟨c, -, hi, ht⟩ | ⟨rfl, ht⟩ | ⟨d, -, hactive, -⟩ | ⟨-, hactive, -⟩ := exec_cases i s
  · cases h.symm.trans ht
    simp [hphase, hi]
  · cases h.symm.trans ht
    simp
  · simp [hphase] at hactive
  · simp [hphase] at hactive

/-! ### The obligations of 40_init.md and 70_reset_and_hazards.md -/

/-- Settles O15: INIT has one law, its word one code, and a neighbour of its word decodes to no command. -/
theorem initGivesTheFreshEngine : Obligations.InitGivesTheFreshEngine := by
  refine ⟨fun s => ?_, rfl, fun s t u ht hu => ?_, fun s d rest hd hp => ?_⟩
  · rw [exec_init, State.respond_ok]
    rfl
  · cases ht
    cases hu
    rfl
  · rw [step_of_illegal s _ rest _ hp (decode_initOp_of_ne_zero d hd), State.takeIllegal_eq]

/-- Settles O16: the law of the reset step; INIT writes the same engine. -/
theorem resetGivesTheFreshEngine : Obligations.ResetGivesTheFreshEngine := by
  refine ⟨step_of_reset, fun s t ht => ?_⟩
  cases ht
  rfl

/-- Settles O17: the table of R31, one element after the other. -/
theorem resetValues : Obligations.ResetValues :=
  ⟨rfl, fun _ hj => Vector.getElem_replicate hj, rfl, rfl, rfl⟩

/-- Settles O18: of the events only a reset and a command can change PHASE, and of the commands only INIT, whose word is
0x0100. -/
theorem onlyInitOrResetLeavesFinalized : Obligations.OnlyInitOrResetLeavesFinalized := by
  intro s t hphase h
  obtain ⟨hp, ht⟩ | ⟨rest, hp, ht⟩ | ⟨w, rest, why, hp, hd, ht⟩ | ⟨w, rest, i, hp, hd, ht⟩ := step_cases s
  · cases h.symm.trans ht
    simp [State.nextIsFreshStart, hp, hphase]
  · cases h.symm.trans ht
    simp [State.nextIsFreshStart, hp]
  · have hw : w ≠ 0x0100#16 := by
      rintro rfl
      simp [decode_initWord] at hd
    cases h.symm.trans ht
    simp [State.nextIsFreshStart, hp, hphase, hw]
  · have hexec := ht.symm.trans h
    rw [exec_phase_of_finalized i { s with pending := rest } t hphase hexec, ← eq_initWord_iff w i hd]
    simp [State.nextIsFreshStart, hp]

/-- Settles O41: the engine after a reset and after INIT is the fresh one. -/
theorem freshEngineHoldsTheEmptyMessage : Obligations.FreshEngineHoldsTheEmptyMessage :=
  ⟨Engine.fresh_holds_nil, fun s => ⟨_, exec_init s, Engine.fresh_holds_nil⟩⟩

end Sys2Proof.Machine
end

section
/-! SUPPORT. PAD as one block or two (43_finalize.md R91 to R94). -/

namespace Sys2Proof.Machine

/-! ### The padding and the blocks it ends -/

theorem padBytes_ne_nil (c : BitVec 6) (l : BitVec 64) : padBytes c l ≠ [] := List.cons_ne_nil _ _

/-- R94: up to CUR = 55 the padding ends the block it begins in. -/
theorem Engine.pad_of_le (e : Engine) (hc : e.cur.toNat ≤ 55) :
    e.pad =
      { h := compress e.h (overlay e.buf e.cur.toNat (padBytes e.cur e.messageBits))
        buf := Vector.replicate 64 0x00#8
        cur := 0#6
        blkcnt := e.blkcnt + 1#55
        phase := e.phase } := by
  have hlen : e.cur.toNat + (padBytes e.cur e.messageBits).length = 64 := by
    rw [padBytes_length, padZeros_of_le _ hc]
    omega
  exact Engine.absorbBytes_of_full _ e (padBytes_ne_nil _ _) hlen

/-- The padding's bytes up to the end of the block it begins in. -/
def padHead (e : Engine) : List Byte := (padBytes e.cur e.messageBits).take (64 - e.cur.toNat)

/-- The padding's bytes after the end of the block it begins in. -/
def padRest (e : Engine) : List Byte := (padBytes e.cur e.messageBits).drop (64 - e.cur.toNat)

theorem padHead_append_padRest (e : Engine) : padHead e ++ padRest e = padBytes e.cur e.messageBits :=
  List.take_append_drop _ _

theorem padHead_length (e : Engine) (hc : 56 ≤ e.cur.toNat) : (padHead e).length = 64 - e.cur.toNat := by
  rw [padHead, List.length_take, padBytes_length, padZeros_of_gt _ hc]
  omega

theorem padRest_length (e : Engine) (hc : 56 ≤ e.cur.toNat) : (padRest e).length = 64 := by
  have := e.cur.isLt
  rw [padRest, List.length_drop, padBytes_length, padZeros_of_gt _ hc]
  omega

/-- R94: from CUR = 56 on the padding ends that block and fills one more. -/
theorem Engine.pad_of_ge (e : Engine) (hc : 56 ≤ e.cur.toNat) :
    e.pad =
      { h := compress (compress e.h (overlay e.buf e.cur.toNat (padHead e)))
          (overlay (Vector.replicate 64 0x00#8) 0 (padRest e))
        buf := Vector.replicate 64 0x00#8
        cur := 0#6
        blkcnt := e.blkcnt + 2#55
        phase := e.phase } := by
  have := e.cur.isLt
  have hhead := padHead_length e hc
  have hrest := padRest_length e hc
  have hfirst := Engine.absorbBytes_of_full (padHead e) e (List.ne_nil_of_length_pos (by omega)) (by omega)
  rw [Engine.pad, ← padHead_append_padRest, Engine.absorbBytes_append, hfirst,
    Engine.absorbBytes_of_full (padRest e) _ (List.ne_nil_of_length_pos (by omega)) (by rw [hrest]; rfl)]
  simp only [BitVec.add_assoc]
  rfl

@[simp] theorem Engine.pad_buf (e : Engine) : e.pad.buf = Vector.replicate 64 0x00#8 := by
  by_cases hc : e.cur.toNat ≤ 55
  · rw [e.pad_of_le hc]
  · rw [e.pad_of_ge (by omega)]

@[simp] theorem Engine.pad_cur (e : Engine) : e.pad.cur = 0#6 := by
  by_cases hc : e.cur.toNat ≤ 55
  · rw [e.pad_of_le hc]
  · rw [e.pad_of_ge (by omega)]

/-- R93: BLKCNT counts the blocks of PAD. -/
theorem Engine.pad_blkcnt (e : Engine) : e.pad.blkcnt = e.blkcnt + if e.cur.toNat ≤ 55 then 1#55 else 2#55 := by
  by_cases hc : e.cur.toNat ≤ 55
  · rw [e.pad_of_le hc, if_pos hc]
  · rw [e.pad_of_ge (by omega), if_neg hc]

/-! ### The padded blocks byte by byte -/

/-- R99's row for CUR up to 55. -/
theorem overlay_padBytes (e : Engine) (hc : e.cur.toNat ≤ 55) :
    overlay e.buf e.cur.toNat (padBytes e.cur e.messageBits) = Vector.ofFn fun j : Fin 64 =>
      if j.val < e.cur.toNat then e.buf[j.val]
      else if j.val = e.cur.toNat then 0x80#8
      else if j.val < 56 then 0x00#8
      else e.messageBits.extractLsb' (8 * (63 - j.val)) 8 := by
  have hz := padZeros_of_le _ hc
  apply Vector.ext
  intro j hj
  rw [overlay_getElem, Vector.getElem_ofFn]
  by_cases hlt : j < e.cur.toNat
  · rw [if_pos hlt, if_pos hlt]
  · rw [if_neg hlt, if_neg hlt, if_pos (by rw [padBytes_length]; omega), padBytes_getD _ _ _ (by omega), hz]
    simp only [show j - e.cur.toNat = 0 ↔ j = e.cur.toNat by omega,
      show j - e.cur.toNat ≤ 55 - e.cur.toNat ↔ j < 56 by omega,
      show 55 - e.cur.toNat + 8 - (j - e.cur.toNat) = 63 - j by omega]

/-- R99's first block for CUR from 56 on. -/
theorem overlay_padHead (e : Engine) (hc : 56 ≤ e.cur.toNat) :
    overlay e.buf e.cur.toNat (padHead e) = Vector.ofFn fun j : Fin 64 =>
      if j.val < e.cur.toNat then e.buf[j.val] else if j.val = e.cur.toNat then 0x80#8 else 0x00#8 := by
  have hz := padZeros_of_gt _ hc
  apply Vector.ext
  intro j hj
  rw [overlay_getElem, Vector.getElem_ofFn]
  by_cases hlt : j < e.cur.toNat
  · rw [if_pos hlt, if_pos hlt]
  · have hbyte : (padHead e).getD (j - e.cur.toNat) 0#8 =
        (padBytes e.cur e.messageBits).getD (j - e.cur.toNat) 0#8 := by
      rw [padHead, List.getD_eq_getElem?_getD, List.getElem?_take_of_lt (by omega), List.getD_eq_getElem?_getD]
    rw [if_neg hlt, if_neg hlt, if_pos (by rw [padHead_length e hc]; omega), hbyte,
      padBytes_getD _ _ _ (by omega), if_pos (show j - e.cur.toNat ≤ padZeros e.cur by omega)]
    simp only [show j - e.cur.toNat = 0 ↔ j = e.cur.toNat by omega]

/-- R99's second block for CUR from 56 on. -/
theorem overlay_padRest (e : Engine) (hc : 56 ≤ e.cur.toNat) :
    overlay (Vector.replicate 64 0x00#8) 0 (padRest e) = Vector.ofFn fun j : Fin 64 =>
      if j.val < 56 then 0x00#8 else e.messageBits.extractLsb' (8 * (63 - j.val)) 8 := by
  have hz := padZeros_of_gt _ hc
  have hcur := e.cur.isLt
  apply Vector.ext
  intro j hj
  have hbyte : (padRest e).getD j 0#8 = (padBytes e.cur e.messageBits).getD (64 - e.cur.toNat + j) 0#8 := by
    rw [padRest, List.getD_eq_getElem?_getD, List.getElem?_drop, List.getD_eq_getElem?_getD]
  rw [overlay_getElem, Vector.getElem_ofFn, if_neg (Nat.not_lt_zero j), Nat.sub_zero,
    if_pos (by rw [padRest_length e hc]; exact hj), hbyte, padBytes_getD _ _ _ (by omega), hz,
    if_neg (by omega)]
  simp only [show 64 - e.cur.toNat + j ≤ 119 - e.cur.toNat ↔ j < 56 by omega,
    show 119 - e.cur.toNat + 8 - (64 - e.cur.toNat + j) = 63 - j by omega]

/-! ### The obligations of 43_finalize.md on PAD -/

/-- Settles O34: L by `messageBits_toNat`, with the bound of T. -/
theorem lengthFieldIsExact : Obligations.LengthFieldIsExact := by
  intro e
  have hbound := e.totalLength_le
  have htotal : e.messageBits.toNat = 8 * e.totalLength := by
    rw [e.messageBits_toNat, Engine.totalLength]
    omega
  exact ⟨e.messageBits_toNat, htotal, by omega⟩

/-- Settles O35: k is `padZeros`, which is (119 - c) mod 64; the rest is arithmetic about it. -/
theorem paddingEndsOnABlockBoundary : Obligations.PaddingEndsOnABlockBoundary := by
  intro c l
  have hk := padZeros_eq_mod c
  have := c.isLt
  rw [padBytes_length]
  exact ⟨padZeros c, by omega, by omega, by omega, rfl, by omega, by omega, by omega⟩

/-- Settles O36: the padding's length and PAD's effect by the cursor. -/
theorem padCompressesOnceOrTwice : Obligations.PadCompressesOnceOrTwice := by
  intro e
  refine ⟨?_, ?_, e.pad_cur, fun j hj => ?_, e.pad_phase⟩
  · have := e.cur.isLt
    rw [padBytes_length, padZeros_eq_mod]
    split <;> omega
  · rw [e.pad_blkcnt, BitVec.toNat_add]
    split <;> rfl
  · rw [e.pad_buf, Vector.getElem_replicate]

/-- Settles O37: FINALIZE pads, and PAD compresses the one block of `overlay_padBytes`. -/
theorem finalizeWithOneBlock : Obligations.FinalizeWithOneBlock := by
  rintro s l h' hphase hc hl rfl
  obtain rfl : l = s.engine.messageBits := BitVec.eq_of_toNat_eq (hl.trans s.engine.messageBits_toNat.symm)
  rw [exec_finalize_of_active s hphase, State.respond_ok, s.engine.pad_of_le hc, overlay_padBytes _ hc]

/-- Settles O38: FINALIZE pads, and PAD compresses the blocks of `overlay_padHead` and `overlay_padRest`. -/
theorem finalizeWithTwoBlocks : Obligations.FinalizeWithTwoBlocks := by
  rintro s l h' h'' hphase hc hl rfl rfl
  obtain rfl : l = s.engine.messageBits := BitVec.eq_of_toNat_eq (hl.trans s.engine.messageBits_toNat.symm)
  rw [exec_finalize_of_active s hphase, State.respond_ok, s.engine.pad_of_ge hc, overlay_padHead _ hc,
    overlay_padRest _ hc]

end Sys2Proof.Machine
end

section
/-! SUPPORT. What every step keeps, and what no response shows (10_state.md R20, R28 to R30; 60_exceptions.md R115). -/

namespace Sys2Proof.Machine

/-! ### The invariant -/

/-- The host's list is not part of the invariant. -/
theorem State.Inv.withPending {s : State} (hs : s.Inv) (p : List HostEvent) : State.Inv { s with pending := p } :=
  ⟨hs.zeroTail, hs.finalizedEmpty, hs.responsesShaped, hs.markRecords⟩

theorem State.Inv.withEngine {s : State} (hs : s.Inv) (e : Engine) (htail : e.zeroTail)
    (hempty : e.phase = .finalized → e.cur = 0#6) : State.Inv { s with engine := e } :=
  ⟨htail, hempty, hs.responsesShaped, hs.markRecords⟩

/-- A response of R55's shape, with the mark that `respond` sets, keeps the invariant. -/
theorem State.Inv.respond {s : State} (hs : s.Inv) (c : ResponseCode) (p : List Byte)
    (hshape : Response.wellShaped ⟨c, p⟩) : (s.respond c p).Inv := by
  refine ⟨hs.zeroTail, hs.finalizedEmpty, fun r hr => ?_, ?_⟩
  · rw [State.respond_responses, List.mem_append, List.mem_singleton] at hr
    obtain hr | rfl := hr
    · exact hs.responsesShaped r hr
    · exact hshape
  · simp [hs.markRecords]

theorem Engine.zeroTail_fresh : Engine.fresh.zeroTail := zeroTail_of_empty _ _ _ _

theorem State.Inv.fresh {s : State} (hs : s.Inv) : State.Inv { s with engine := Engine.fresh } :=
  hs.withEngine _ Engine.zeroTail_fresh (fun h => by simp at h)

/-- After PAD the buffer is empty (R29). -/
theorem State.Inv.finalized {s : State} (hs : s.Inv) :
    State.Inv { s with engine := { s.engine.pad with phase := .finalized } } := by
  refine hs.withEngine _ (fun j hj _ => ?_) fun _ => s.engine.pad_cur
  simp only [s.engine.pad_buf, Vector.getElem_replicate]

theorem exec_keeps_inv (i : Instr) (s t : State) (hs : s.Inv) (h : exec i s = .next t) : t.Inv := by
  obtain ⟨c, -, -, ht⟩ | ⟨-, ht⟩ | ⟨d, -, hphase, -, ht⟩ | ⟨-, -, ht⟩ := exec_cases i s <;> cases h.symm.trans ht
  · exact hs.respond c [] (.inl rfl)
  · exact hs.fresh.respond .ok [] (.inl rfl)
  · have hstored := hs.withEngine _ (s.engine.absorbStep_zeroTail d hs.zeroTail) (by simp [hphase])
    exact hstored.respond .ok [] (.inl rfl)
  · exact hs.finalized.respond .ok _ (.inr ⟨rfl, digestBytes_length _⟩)

/-! ### Machines the same for their host -/

/-- Two machines that their host cannot tell apart so far: the same record and events, and engines the same for the host. -/
structure State.SameForHost (s s' : State) : Prop where
  engine : s.engine.SameForHost s'.engine
  pending : s.pending = s'.pending
  responses : s.responses = s'.responses
  faultMark : s.faultMark = s'.faultMark

theorem State.SameForHost.withPending {s s' : State} (hs : s.SameForHost s') (p : List HostEvent) :
    State.SameForHost { s with pending := p } { s' with pending := p } :=
  ⟨hs.engine, rfl, hs.responses, hs.faultMark⟩

theorem State.SameForHost.withEngine {s s' : State} (hs : s.SameForHost s') (e e' : Engine) (he : e.SameForHost e') :
    State.SameForHost { s with engine := e } { s' with engine := e' } :=
  ⟨he, hs.pending, hs.responses, hs.faultMark⟩

/-- One response given to both leaves them the same. -/
theorem State.SameForHost.respond {s s' : State} (hs : s.SameForHost s') (c : ResponseCode) (p : List Byte) :
    (s.respond c p).SameForHost (s'.respond c p) :=
  ⟨hs.engine, hs.pending, by simp [hs.responses], by simp [hs.faultMark]⟩

theorem State.SameForHost.fresh {s s' : State} (hs : s.SameForHost s') :
    State.SameForHost { s with engine := Engine.fresh } { s' with engine := Engine.fresh } :=
  hs.withEngine _ _ (.inl (Engine.SameButTail.refl _))

/-- Two finalized engines, the same for the host whatever else they hold, or two ACTIVE engines equal but for their
tails. -/
theorem Engine.SameForHost.phase_cases {e f : Engine} (h : e.SameForHost f) :
    (e.phase = .finalized ∧ f.phase = .finalized) ∨ (e.phase = .active ∧ f.phase = .active ∧ e.SameButTail f) := by
  obtain htail | hfin := h
  · cases hphase : e.phase with
    | finalized => exact .inl ⟨rfl, htail.phase.symm.trans hphase⟩
    | active => exact .inr ⟨rfl, htail.phase.symm.trans hphase, htail⟩
  · exact .inl hfin

/-- The length check reads BLKCNT and CUR only. -/
theorem Engine.SameButTail.lengthFull_eq {e f : Engine} (h : e.SameButTail f) : f.lengthFull = e.lengthFull := by
  rw [Engine.lengthFull, Engine.lengthFull, h.blkcnt, h.cur]

/-- PAD reads BLKCNT and CUR, and of BUF the filled part. -/
theorem Engine.SameButTail.pad {e f : Engine} (h : e.SameButTail f) : e.pad.SameButTail f.pad := by
  have hbytes : padBytes f.cur f.messageBits = padBytes e.cur e.messageBits := by
    rw [Engine.messageBits, Engine.messageBits, h.blkcnt, h.cur]
  rw [Engine.pad, Engine.pad, hbytes]
  exact Engine.SameButTail.absorbBytes _ e f h

/-- A command given to both is answered alike and leaves them the same: INIT makes both fresh, a finalized engine
refuses, and two ACTIVE engines agree on all that ABSORB and FINALIZE read. -/
theorem State.SameForHost.exec {s s' t t' : State} (i : Instr) (hs : s.SameForHost s')
    (h : exec i s = .next t) (h' : exec i s' = .next t') : t.SameForHost t' := by
  cases i with
  | init =>
    cases h
    cases h'
    exact hs.fresh.respond .ok []
  | absorb d =>
    obtain ⟨hfin, hfin'⟩ | ⟨hact, hact', htail⟩ := hs.engine.phase_cases
    · cases h.symm.trans (exec_absorb_of_finalized d s hfin)
      cases h'.symm.trans (exec_absorb_of_finalized d s' hfin')
      exact hs.respond .errFinalized []
    · cases hfull : s.engine.lengthFull with
      | true =>
        cases h.symm.trans (exec_absorb_of_lengthFull d s hact hfull)
        cases h'.symm.trans (exec_absorb_of_lengthFull d s' hact' (htail.lengthFull_eq.trans hfull))
        exact hs.respond .errLength []
      | false =>
        cases h.symm.trans (exec_absorb_of_active d s hact hfull)
        cases h'.symm.trans (exec_absorb_of_active d s' hact' (htail.lengthFull_eq.trans hfull))
        exact (hs.withEngine _ _ (.inl (htail.absorbStep _ _ d))).respond .ok []
  | finalize =>
    obtain ⟨hfin, hfin'⟩ | ⟨hact, hact', htail⟩ := hs.engine.phase_cases
    · cases h.symm.trans (exec_finalize_of_finalized s hfin)
      cases h'.symm.trans (exec_finalize_of_finalized s' hfin')
      exact hs.respond .errFinalized []
    · cases h.symm.trans (exec_finalize_of_active s hact)
      cases h'.symm.trans (exec_finalize_of_active s' hact')
      rw [← htail.pad.h]
      exact (hs.withEngine _ _ (.inr ⟨rfl, rfl⟩)).respond .ok _

/-! ### The obligations on what every step keeps -/

/-- Settles O50: nothing has been answered yet and the engine is fresh. -/
theorem resetMeetsTheInvariant : Obligations.ResetMeetsTheInvariant :=
  ⟨Engine.zeroTail_fresh, fun _ => rfl, fun _ hr => absurd hr List.not_mem_nil, rfl⟩

/-- Settles O51: a reset gives the fresh engine, an ILLEGAL word one response, a command what `exec_keeps_inv` says. -/
theorem stepKeepsTheInvariant : Obligations.StepKeepsTheInvariant := by
  intro s t hs h
  obtain ⟨-, ht⟩ | ⟨rest, -, ht⟩ | ⟨w, rest, why, -, -, ht⟩ | ⟨w, rest, i, -, -, ht⟩ := step_cases s
  · cases h.symm.trans ht
    exact hs
  · cases h.symm.trans ht
    exact (hs.withPending rest).fresh
  · cases h.symm.trans ht
    exact (hs.withPending rest).respond .errIllegal [] (.inl rfl)
  · exact exec_keeps_inv i _ t (hs.withPending rest) (ht.symm.trans h)

/-- Settles O52: both machines take the same event, and each kind of event leaves them the same for their host. -/
theorem hiddenStateDoesNotShow : Obligations.HiddenStateDoesNotShow := by
  intro s s' t t' hengine hpending hresponses hmark h h'
  have hs : s.SameForHost s' := ⟨hengine, hpending, hresponses, hmark⟩
  suffices ht : t.SameForHost t' from ⟨ht.engine, ht.pending, ht.responses, ht.faultMark⟩
  obtain ⟨hp, ht⟩ | ⟨rest, hp, ht⟩ | ⟨w, rest, why, hp, hd, ht⟩ | ⟨w, rest, i, hp, hd, ht⟩ := step_cases s <;>
    rw [hpending] at hp
  · cases h.symm.trans ht
    cases h'.symm.trans (step_of_idle s' hp)
    exact hs
  · cases h.symm.trans ht
    cases h'.symm.trans (step_of_reset s' rest hp)
    exact (hs.withPending rest).fresh
  · cases h.symm.trans ht
    cases h'.symm.trans (step_of_illegal s' w rest why hp hd)
    exact (hs.withPending rest).respond .errIllegal []
  · have hexec' := (step_of_decode_ok s' w rest i hp hd).symm.trans h'
    exact (hs.withPending rest).exec i (ht.symm.trans h) hexec'

end Sys2Proof.Machine
end

section
/-! SUPPORT. The words of assembler lines as command words (30_encoding.md R59, R60). -/

namespace Sys2Proof.Machine

/-! ### ABSORB lines -/

theorem assembleLine_absorb (b : AsmByte) (h : b.wellFormed = true) :
    assembleLine (.absorb b) = some [encode (.absorb (asmByteValue b))] := by
  simp [assembleLine, AsmLine.wellFormed, h, encode_absorb_eq_or]

theorem encode_absorb_ofNat (n : Nat) (h : n < 256) :
    encode (.absorb (BitVec.ofNat 8 n)) = BitVec.ofNat 16 (512 + n) := by
  apply BitVec.eq_of_toNat_eq
  rw [encode_absorb_toNat, BitVec.toNat_ofNat, BitVec.toNat_ofNat]
  omega

/-- R59's row of ABSORB for an operand whose value is `n`. -/
theorem assembleLine_absorb_of_value (b : AsmByte) (n : Nat) (h : b.wellFormed = true) (hn : n < 256)
    (hb : asmByteValue b = BitVec.ofNat 8 n) :
    assembleLine (.absorb b) = some [BitVec.ofNat 16 (512 + n)] ∧
      decode (BitVec.ofNat 16 (512 + n)) = .ok (.absorb (BitVec.ofNat 8 n)) := by
  rw [assembleLine_absorb b h, hb, encode_absorb_ofNat n hn, ← encode_absorb_ofNat n hn]
  exact ⟨rfl, decode_encode _⟩

/-- Only `.word` can make a word that is no command's (R59). -/
theorem exists_assembleLine_eq_map_encode (l : AsmLine) (ws : List CmdWord) (hl : ∀ n, l ≠ .word n)
    (h : assembleLine l = some ws) : ∃ is : List Instr, ws = is.map encode := by
  obtain ⟨-, h⟩ := Option.ite_none_right_eq_some.1 h
  cases l with
  | blank => exact ⟨[], (Option.some.inj h).symm⟩
  | init => exact ⟨[.init], (Option.some.inj h).symm⟩
  | absorb b =>
    refine ⟨[.absorb (asmByteValue b)], ?_⟩
    rw [List.map_singleton, encode_absorb_eq_or]
    exact (Option.some.inj h).symm
  | finalize => exact ⟨[.finalize], (Option.some.inj h).symm⟩
  | word n => exact absurd rfl (hl n)
  | absorbs bs => exact ⟨_, (Option.some.inj h).symm⟩
  | hash bs => exact ⟨_, (Option.some.inj h).symm⟩

/-! ### The pseudo-instructions -/

/-- ABSORBS of an operand with the bytes of `bs` is its ABSORB lines (R60). -/
theorem assembleLine_absorbs (operand : AsmBytes) (bs : List AsmByte) (hwf : operand.wellFormed = true)
    (hvalue : asmBytesValue operand = bs.map asmByteValue) (h : ∀ b ∈ bs, b.wellFormed = true) :
    assembleLine (.absorbs operand) = assemble (bs.map .absorb) := by
  have hline : assembleLine (.absorbs operand) = some ((absorbsCommands (asmBytesValue operand)).map encode) :=
    if_pos hwf
  have hlines := assemble_absorb_lines bs h [] [] rfl
  rw [List.append_nil, List.append_nil] at hlines
  rw [hline, hvalue, hlines]

/-- HASH of an operand with the bytes of `bs` is INIT, its ABSORB lines, FINALIZE (R60). -/
theorem assembleLine_hash (operand : AsmBytes) (bs : List AsmByte) (hwf : operand.wellFormed = true)
    (hvalue : asmBytesValue operand = bs.map asmByteValue) (h : ∀ b ∈ bs, b.wellFormed = true) :
    assembleLine (.hash operand) = assemble (.init :: (bs.map .absorb ++ [.finalize])) := by
  have hline : assembleLine (.hash operand) = some ((hashCommands (asmBytesValue operand)).map encode) := if_pos hwf
  have hinit : assembleLine .init = some [encode .init] := rfl
  have hlines := assemble_absorb_lines bs h [.finalize] [encode .finalize] rfl
  rw [hline, hvalue, hashCommands, List.map_cons, List.map_append, assemble, hinit, hlines]
  rfl

/-! ### The obligations of 30_encoding.md on assembler lines -/

/-- Settles O7: every ABSORB line gives the word of its command, and so does every line that is not `.word`. -/
theorem assembledLinesDecodeToTheirCommands : Obligations.AssembledLinesDecodeToTheirCommands := by
  refine ⟨⟨rfl, decode_initWord⟩, fun n hn => ?_, fun c hc => ?_, ⟨rfl, decode_finalizeWord⟩, fun n hn => ?_,
    fun l ws hl h w hw => ?_⟩
  · exact assembleLine_absorb_of_value (.num n) n (decide_eq_true hn) (by omega) rfl
  · exact assembleLine_absorb_of_value (.chr c) c.toNat (decide_eq_true hc) (by omega) rfl
  · exact if_pos (decide_eq_true hn)
  · obtain ⟨is, rfl⟩ := exists_assembleLine_eq_map_encode l ws hl h
    obtain ⟨i, -, rfl⟩ := List.mem_map.1 hw
    exact ⟨i, decode_encode i⟩

/-- Settles O8: the list form names its bytes, the quoted form stands for the bytes of its characters (00_scope.md R11). -/
theorem pseudoInstructionsExpandToCommands : Obligations.PseudoInstructionsExpandToCommands := by
  refine ⟨fun bs h => ?_, fun cs h => ?_⟩
  · have hwf : (AsmBytes.list bs).wellFormed = true := List.all_eq_true.2 h
    exact ⟨assembleLine_absorbs _ bs hwf rfl h, assembleLine_hash _ bs hwf rfl h⟩
  · have hwf : (AsmBytes.text cs).wellFormed = true := List.all_eq_true.2 fun c hc => decide_eq_true (h c hc)
    have hvalue : asmBytesValue (.text cs) = (cs.map .chr).map asmByteValue := by
      rw [List.map_map]
      rfl
    have hchars : ∀ b ∈ cs.map AsmByte.chr, b.wellFormed = true :=
      List.forall_mem_map.2 fun c hc => decide_eq_true (h c hc)
    have hlines : (cs.map fun c => AsmLine.absorb (.chr c)) = (cs.map .chr).map .absorb := List.map_map.symm
    rw [hlines]
    exact ⟨assembleLine_absorbs _ _ hwf hvalue hchars, assembleLine_hash _ _ hwf hvalue hchars⟩

end Sys2Proof.Machine
end

section
/-! SUPPORT. What ABSORB changes, the length T and the message an engine holds (41_absorb.md R65 to R72, 10_state.md R13 to R18). -/

namespace Sys2Proof.Machine

/-! ### One accepted byte -/

/-- R67: below the limit the absorb step makes T one more. -/
theorem Engine.absorbStep_totalLength (e : Engine) (d : Byte) (h : e.totalLength < 2 ^ 61 - 1) :
    (e.absorbStep d).totalLength = e.totalLength + 1 := by
  have hcur := e.cur.isLt
  simp only [Engine.totalLength] at h ⊢
  by_cases hc : e.cur.toNat = 63
  · rw [Engine.absorbStep_of_full e d hc, Engine.blockFull_blkcnt_eq_ofNat, Engine.blockFull_cur,
      Engine.store_blkcnt, BitVec.toNat_ofNat, BitVec.toNat_ofNat]
    omega
  · rw [Engine.absorbStep_of_lt e d (by omega)]
    simp only [BitVec.toNat_ofNat]
    omega

/-- Below the limit an ACTIVE engine takes the byte. -/
theorem exec_absorb_of_totalLength_lt (d : Byte) (s : State) (h : s.engine.phase = .active)
    (hlt : s.engine.totalLength < 2 ^ 61 - 1) :
    exec (.absorb d) s = .next { s with
      engine := s.engine.absorbStep d
      responses := s.responses ++ [⟨.ok, []⟩] } := by
  rw [exec_absorb_of_active d s h (s.engine.lengthFull_eq_false_iff_totalLength_lt.2 hlt), State.respond_ok]

/-- The two things ABSORB can do. -/
theorem exec_absorb_cases (d : Byte) (s : State) :
    (∃ c, c ≠ .ok ∧ exec (.absorb d) s = .next (s.raiseErr c)) ∨
    (exec (.absorb d) s = .next (State.respond { s with engine := s.engine.absorbStep d } .ok [])) := by
  obtain ⟨c, hc, -, ht⟩ | ⟨hi, -⟩ | ⟨b, hb, -, -, ht⟩ | ⟨hi, -⟩ := exec_cases (.absorb d) s
  · have hne : c ≠ .ok := by rintro rfl; simp at hc
    exact .inl ⟨c, hne, ht⟩
  · cases hi
  · cases hb
    exact .inr ht
  · cases hi

/-! ### The message held -/

/-- BLKCNT and CUR are the quotient and the remainder of T by 64 (R18). -/
theorem Engine.eq_of_totalLength_eq (e f : Engine) (h : e.totalLength = f.totalLength) :
    e.blkcnt = f.blkcnt ∧ e.cur = f.cur := by
  have := e.cur.isLt
  have := f.cur.isLt
  simp only [Engine.totalLength] at h
  exact ⟨BitVec.eq_of_toNat_eq (by omega), BitVec.eq_of_toNat_eq (by omega)⟩

/-- What has been absorbed is held when the counters have not wrapped. -/
theorem Engine.Absorbed.holds {e : Engine} {m : List Byte} (hm : e.Absorbed m) (hactive : e.phase = .active)
    (hlen : m.length = e.totalLength) : e.Holds m := by
  have hdiv : m.length / 64 = e.blkcnt.toNat := by
    have := e.cur.isLt
    rw [hlen, Engine.totalLength]
    omega
  exact ⟨hactive, hlen, hdiv ▸ hm.h, hdiv ▸ hm.filled⟩

theorem Engine.Holds.absorbStep {e : Engine} {m : List Byte} (hm : e.Holds m) (d : Byte)
    (hlt : m.length < 2 ^ 61 - 1) : (e.absorbStep d).Holds (m ++ [d]) := by
  have hlen := hm.length
  refine (hm.absorbed.absorbStep d).holds (by rw [Engine.absorbStep_phase, hm.active]) ?_
  rw [Engine.absorbStep_totalLength e d (by omega), List.length_append, List.length_singleton, hlen]

theorem Engine.Holds.absorbBytes {e : Engine} {m : List Byte} (hm : e.Holds m) (bs : List Byte)
    (hlt : m.length + bs.length < 2 ^ 61) : (e.absorbBytes bs).Holds (m ++ bs) := by
  induction bs generalizing e m with
  | nil => rwa [List.append_nil]
  | cons b bs ih =>
    rw [List.length_cons] at hlt
    rw [Engine.absorbBytes_cons, List.append_cons]
    exact ih (hm.absorbStep b (by omega)) (by rw [List.length_append, List.length_singleton]; omega)

/-! ### Runs of ABSORB -/

/-- Below the limit the run of the ABSORB words of `m` is the absorb step folded over `m`, each byte answered OK (R70);
what the host issues after them waits. -/
theorem run_absorbs (m : List Byte) (s : State) (rest : List HostEvent)
    (hp : s.pending = (absorbsCommands m).map (fun i => .command (encode i)) ++ rest)
    (hphase : s.engine.phase = .active) (hlt : s.engine.totalLength + m.length < 2 ^ 61) :
    Host.Core.run core m.length s = .next { s with
      engine := s.engine.absorbBytes m
      pending := rest
      responses := s.responses ++ List.replicate m.length ⟨.ok, []⟩ } := by
  induction m generalizing s with
  | nil =>
    obtain rfl : s.pending = rest := hp
    rw [List.length_nil, List.replicate_zero, List.append_nil]
    rfl
  | cons d m ih =>
    rw [List.length_cons] at hlt ⊢
    have hroom : s.engine.totalLength < 2 ^ 61 - 1 := by omega
    have hstep := (step_of_encode s (.absorb d) _ hp).trans (exec_absorb_of_totalLength_lt d _ hphase hroom)
    rw [run_succ _ s _ hstep, ih _ rfl (by rw [Engine.absorbStep_phase, hphase])
      (by rw [Engine.absorbStep_totalLength _ _ hroom]; omega)]
    rw [Engine.absorbBytes_cons, List.replicate_succ, List.append_assoc, List.singleton_append]

/-- From any state the run of as many steps as commands takes all of them. -/
theorem exists_run_issuing (s : State) (is : List Instr) :
    ∃ t, Host.Core.run core is.length (s.issuing is) = .next t ∧ t.pending = [] := by
  have hp : (s.issuing is).pending = (is.map encode).map .command := List.map_map.symm
  obtain ⟨rs, -, hrun⟩ := runShowsOneResponsePerWord _ _ hp
  obtain ⟨t, ht, hpending, -⟩ := hrun is.length (by rw [List.length_map])
  refine ⟨t, ht, ?_⟩
  rw [hpending, List.drop_of_length_le (by rw [List.length_map]), List.map_nil]

/-- Commands issued at once run as those issued first and then, from where they end, the others (R71). -/
theorem run_issuing_append (s t : State) (is js : List Instr)
    (h : Host.Core.run core is.length (s.issuing is) = .next t) (hp : t.pending = []) :
    Host.Core.run core (is ++ js).length (s.issuing (is ++ js)) =
      Host.Core.run core js.length (t.issuing js) := by
  have hlater := laterCommandsDoNotMatter is.length (s.issuing is) t (t.issuing js).pending
    (by simp [State.issuing]) h
  have hfirst : State.issuing s (is ++ js) =
      { s.issuing is with pending := (s.issuing is).pending ++ (t.issuing js).pending } := by
    simp [State.issuing]
  rw [List.length_append, hfirst, run_add _ _ _ _ hlater, hp, List.nil_append]
  rfl

/-! ### The obligations of 41_absorb.md on the engine and its message -/

/-- Settles O21: CUR below 63 passes the length check, and below the block end the step stores. -/
theorem absorbBelowTheBlockEnd : Obligations.AbsorbBelowTheBlockEnd := by
  intro d s hphase hc
  have hroom : s.engine.lengthFull = false := s.engine.lengthFull_eq_false_iff.2 (by omega)
  rw [exec_absorb_of_active d s hphase hroom, State.respond_ok, Engine.absorbStep_of_lt _ d hc]

/-- Settles O22: BLKCNT below 2^55 - 1 passes the length check, and the count of `absorbStepStoresAndCompresses` does not
wrap. -/
theorem absorbFillingABlock : Obligations.AbsorbFillingABlock := by
  intro d s hphase hc hblk
  have hroom : s.engine.lengthFull = false := s.engine.lengthFull_eq_false_iff.2 (by omega)
  have hwrap : (s.engine.blkcnt.toNat + 1) % 2 ^ 55 = s.engine.blkcnt.toNat + 1 := Nat.mod_eq_of_lt (by omega)
  obtain ⟨-, hfull, -⟩ := absorbStepStoresAndCompresses
  rw [exec_absorb_of_active d s hphase hroom, State.respond_ok, hfull _ d hc, hphase, hwrap]

/-- Settles O23: ABSORB is refused and changes no more, or it is the absorb step, which below the block end writes BUF[CUR]
and CUR. -/
theorem absorbFrame : Obligations.AbsorbFrame := by
  intro d s t h
  obtain ⟨c, hc, ht⟩ | ht := exec_absorb_cases d s <;> cases h.symm.trans ht
  · exact ⟨rfl, rfl, fun _ => ⟨rfl, rfl, fun _ _ _ => rfl⟩, ⟨c, []⟩, rfl, rfl, fun _ => ⟨rfl, by simp [hc]⟩,
      fun hok => absurd hok hc⟩
  · refine ⟨Engine.absorbStep_phase _ d, rfl, fun hlt => ?_, ⟨.ok, []⟩, rfl, rfl, fun hne => absurd rfl hne,
      fun _ => by simp⟩
    rw [State.respond_engine, Engine.absorbStep_of_lt s.engine d hlt]
    exact ⟨rfl, rfl, fun j hj hne => Vector.getElem_set_ne s.engine.cur.isLt hj hne.symm⟩

/-- Settles O24: T is at most 2^61 - 1; below it the byte is taken and counted, at it the length check refuses. -/
theorem absorbCountsOneByte : Obligations.AbsorbCountsOneByte := by
  intro d s t hphase h
  refine ⟨s.engine.totalLength_le, fun hlt => ?_, fun hfull => ?_⟩
  · cases h.symm.trans (exec_absorb_of_totalLength_lt d s hphase hlt)
    exact ⟨s.engine.absorbStep_totalLength d hlt, rfl⟩
  · cases h.symm.trans (exec_absorb_of_lengthFull d s hphase (s.engine.lengthFull_iff_totalLength.2 hfull))
    exact ⟨rfl, rfl⟩

/-- Settles O25: the engine that holds `m` has room for the byte, and the absorb step holds one byte more. -/
theorem absorbExtendsTheMessage : Obligations.AbsorbExtendsTheMessage := by
  intro d s m hm hlt
  exact ⟨_, exec_absorb_of_totalLength_lt d s hm.active (hm.length ▸ hlt), hm.absorbStep d hlt, rfl, rfl, rfl⟩

/-- Settles O26: the message's length gives the counters, its blocks H, its last bytes the filled part of BUF. -/
theorem theMessageFixesTheEngine : Obligations.TheMessageFixesTheEngine := by
  rintro ⟨h, buf, cur, blkcnt, phase⟩ ⟨h', buf', cur', blkcnt', phase'⟩ m he hf hze hzf
  obtain ⟨rfl, rfl⟩ := Engine.eq_of_totalLength_eq _ _ (he.length.symm.trans hf.length)
  obtain rfl : h = h' := he.blocks.trans hf.blocks.symm
  obtain rfl : phase = phase' := he.active.trans hf.active.symm
  obtain rfl : buf = buf' := by
    apply Vector.ext
    intro j hj
    by_cases hlt : j < cur.toNat
    · exact Option.some.inj ((he.filled j hj hlt).symm.trans (hf.filled j hj hlt))
    · exact (hze j hj (Nat.le_of_not_lt hlt)).trans (hzf j hj (Nat.le_of_not_lt hlt)).symm
  rfl

/-- Settles O54: the run of all the words is the run of the first part and from its end the run of the second
(`run_issuing_append`); below the limit the run of all of them is `run_absorbs`. -/
theorem chunkingDoesNotMatter : Obligations.ChunkingDoesNotMatter := by
  intro m₁ m₂ s
  obtain ⟨t, ht, htp⟩ := exists_run_issuing s (absorbsCommands m₁)
  obtain ⟨u, hu, -⟩ := exists_run_issuing t (absorbsCommands m₂)
  have hall := (run_issuing_append s t _ (absorbsCommands m₂) ht htp).trans hu
  have hlen (m : List Byte) : (absorbsCommands m).length = m.length := List.length_map _
  have happend : absorbsCommands m₁ ++ absorbsCommands m₂ = absorbsCommands (m₁ ++ m₂) := List.map_append.symm
  rw [happend, hlen] at hall
  rw [hlen] at ht hu
  refine ⟨t, u, ht, hu, hall, fun hphase hlt => ?_⟩
  cases hall.symm.trans (run_absorbs (m₁ ++ m₂) _ [] (List.append_nil _).symm hphase hlt)
  exact ⟨rfl, rfl⟩

end Sys2Proof.Machine
end

section
/-! SUPPORT. Rotation, the round functions, the working words round by round and the 16-word window (42_compress.md R74 to R86). -/

namespace Sys2Proof.Machine

/-! ### Rotation and byte order -/

/-- R86: rotating on by 32 - n gives the word back. -/
theorem rotl_rotl (x : Word) (n : Nat) (h0 : 0 < n) (hn : n < 32) : rotl (rotl x n) (32 - n) = x := by
  apply BitVec.eq_of_getLsbD_eq
  intro i hi
  rw [rotl_getLsbD _ _ _ (by omega) (by omega) hi, rotl_getLsbD _ _ _ h0 hn (Nat.mod_lt _ (by decide))]
  congr 1
  omega

/-- The bits above the last byte of a concatenation are the bits of what stands before it. -/
theorem extractLsb'_append_byte {n : Nat} (x : BitVec n) (b : Byte) (start : Nat) :
    (x ++ b).extractLsb' (start + 8) 8 = x.extractLsb' start 8 := by
  rw [BitVec.extractLsb'_append_eq_of_le (Nat.le_add_left 8 start), Nat.add_sub_cancel]

/-- R10: the first byte of a word is its bits 31:24, the last one bits 7:0. -/
theorem be32_extract (b0 b1 b2 b3 : Byte) :
    (be32 b0 b1 b2 b3).extractLsb' 24 8 = b0 ∧ (be32 b0 b1 b2 b3).extractLsb' 16 8 = b1 ∧
      (be32 b0 b1 b2 b3).extractLsb' 8 8 = b2 ∧ (be32 b0 b1 b2 b3).extractLsb' 0 8 = b3 := by
  have hlast (start : Nat) : (be32 b0 b1 b2 b3).extractLsb' (start + 8) 8 = (b0 ++ b1 ++ b2).extractLsb' start 8 :=
    extractLsb'_append_byte _ _ _
  refine ⟨?_, ?_, ?_, BitVec.extractLsb'_append_eq_right⟩
  · rw [hlast 16, extractLsb'_append_byte _ _ 8, BitVec.extractLsb'_append_eq_left]
  · rw [hlast 8, extractLsb'_append_byte _ _ 0, BitVec.extractLsb'_append_eq_right]
  · rw [hlast 0, BitVec.extractLsb'_append_eq_right]

/-! ### The round functions by phase (R78) -/

theorem roundF_of_le_19 (t : Nat) (h : t ≤ 19) : roundF t = fCh := by
  funext b c d
  rw [roundF, if_pos h]

theorem roundF_of_parity (t : Nat) (h : 20 ≤ t ∧ t ≤ 39 ∨ 60 ≤ t ∧ t ≤ 79) : roundF t = fParity := by
  funext b c d
  rw [roundF, if_neg (by omega)]
  by_cases h39 : t ≤ 39
  · rw [if_pos h39]
  · rw [if_neg h39, if_neg (by omega)]

theorem roundF_of_maj (t : Nat) (h : 40 ≤ t ∧ t ≤ 59) : roundF t = fMaj := by
  funext b c d
  rw [roundF, if_neg (by omega), if_neg (by omega), if_pos h.2]

theorem fCh_getLsbD (b c d : Word) (i : Nat) (hi : i < 32) :
    (fCh b c d).getLsbD i = if b.getLsbD i then c.getLsbD i else d.getLsbD i := by
  simp only [fCh, BitVec.getLsbD_or, BitVec.getLsbD_and, BitVec.getLsbD_not, hi, decide_true, Bool.true_and]
  cases b.getLsbD i <;> simp

theorem fParity_getLsbD (b c d : Word) (i : Nat) :
    (fParity b c d).getLsbD i =
      decide (((b.getLsbD i).toNat + (c.getLsbD i).toNat + (d.getLsbD i).toNat) % 2 = 1) := by
  simp only [fParity, BitVec.getLsbD_xor]
  cases b.getLsbD i <;> cases c.getLsbD i <;> cases d.getLsbD i <;> rfl

theorem fMaj_getLsbD (b c d : Word) (i : Nat) :
    (fMaj b c d).getLsbD i = decide (2 ≤ (b.getLsbD i).toNat + (c.getLsbD i).toNat + (d.getLsbD i).toNat) := by
  simp only [fMaj, BitVec.getLsbD_or, BitVec.getLsbD_and]
  cases b.getLsbD i <;> cases c.getLsbD i <;> cases d.getLsbD i <;> rfl

/-- R78: the function and the constant of round `t`. -/
theorem roundF_and_roundK (t : Nat) (b c d : Word) :
    if t ≤ 19 then roundF t b c d = (b &&& c) ||| (~~~b &&& d) ∧ roundK t = 0x5A827999#32
    else if t ≤ 39 then roundF t b c d = b ^^^ c ^^^ d ∧ roundK t = 0x6ED9EBA1#32
    else if t ≤ 59 then roundF t b c d = (b &&& c) ||| (b &&& d) ||| (c &&& d) ∧ roundK t = 0x8F1BBCDC#32
    else roundF t b c d = b ^^^ c ^^^ d ∧ roundK t = 0xCA62C1D6#32 := by
  unfold roundF roundK
  split_ifs <;> exact ⟨rfl, rfl⟩

/-! ### The working words before each round -/

/-- Word `t` of the schedule (R74, R75). -/
def scheduleWord (block : Block) (t : Nat) : Word := (schedule block).getD t 0#32

/-- The working words before round `t`; after the last round for `t` = 80 (R77, R82). -/
def workingBefore (h : Acc) (block : Block) (t : Nat) : Working :=
  runRounds 0 ((schedule block).take t) (workingCopy h)

theorem workingBefore_succ (h : Acc) (block : Block) (t : Nat) (ht : t < 80) :
    workingBefore h block (t + 1) = roundStep t (scheduleWord block t) (workingBefore h block t) := by
  have hlen : ((schedule block).take t).length = t := by
    rw [List.length_take, schedule_length]
    omega
  have htake : (schedule block).take (t + 1) = (schedule block).take t ++ [scheduleWord block t] := by
    rw [List.take_add_one, schedule_getElem?_eq_some_getD block t ht]
    rfl
  rw [workingBefore, htake, runRounds_append_singleton, hlen, Nat.zero_add, workingBefore]

theorem compress_eq_feedForward (h : Acc) (block : Block) :
    compress h block = feedForward h (workingBefore h block 80) := by
  rw [compress_eq, workingBefore, List.take_of_length_le (by rw [schedule_length])]

theorem scheduleWord_of_lt (block : Block) (i : Nat) (hi : i < 16) :
    scheduleWord block i = blockWord block ⟨i, hi⟩ := by
  rw [scheduleWord, List.getD_eq_getElem?_getD, schedule_getElem?_of_lt block i hi]
  rfl

/-! ### The window -/

/-- Before round `t` the window holds every word computed so far that a later round reads: the last sixteen (R76). -/
def WindowHolds (block : Block) (t : Nat) (win : Vector Word 16) : Prop :=
  ∀ i : Nat, t ≤ i + 16 → i < max t 16 → win[i % 16]'(Nat.mod_lt _ (by decide)) = scheduleWord block i

theorem windowHolds_initial (block : Block) : WindowHolds block 0 (Vector.ofFn (blockWord block)) := by
  intro i _ hi
  have hi16 : i < 16 := by omega
  simp only [Vector.getElem_ofFn, Nat.mod_eq_of_lt hi16, scheduleWord_of_lt block i hi16]

/-- R76: the word the window gives round `t` is word `t` of the schedule. -/
theorem WindowHolds.windowWord_eq {block : Block} {t : Nat} {win : Vector Word 16} (hw : WindowHolds block t win)
    (ht : t < 80) : windowWord win t = scheduleWord block t := by
  by_cases h16 : t < 16
  · rw [windowWord, if_pos h16, hw t (by omega) (by omega)]
  · rw [windowWord, if_neg h16, hw (t - 3) (by omega) (by omega), hw (t - 8) (by omega) (by omega),
      hw (t - 14) (by omega) (by omega), hw (t - 16) (by omega) (by omega), rotl_eq_rotateLeft _ 1 (by decide)]
    exact (schedule_getD_of_le block t (by omega) ht).symm

/-- Word `t` takes the place of word `t - 16`, which no later round reads. -/
theorem WindowHolds.set {block : Block} {t : Nat} {win : Vector Word 16} (hw : WindowHolds block t win) :
    WindowHolds block (t + 1) (win.set (t % 16) (scheduleWord block t) (Nat.mod_lt _ (by decide))) := by
  intro i hlow hhigh
  by_cases hi : i % 16 = t % 16
  · obtain rfl : i = t := by omega
    exact Vector.getElem_set_self _
  · rw [Vector.getElem_set_ne _ _ (Ne.symm hi)]
    exact hw i (by omega) (by omega)

/-- The rounds over the window are the rounds over the stored words. -/
theorem runWindow_eq (h : Acc) (block : Block) (n t : Nat) (win : Vector Word 16) (hn : t + n = 80)
    (hw : WindowHolds block t win) : runWindow n t win (workingBefore h block t) = workingBefore h block 80 := by
  induction n generalizing t win with
  | zero =>
    have hlast : t = 80 := hn
    rw [runWindow, hlast]
  | succ n ih =>
    rw [runWindow, hw.windowWord_eq (by omega), ← workingBefore_succ h block t (by omega)]
    exact ih (t + 1) _ (by omega) hw.set

/-! ### The obligations of 42_compress.md -/

/-- Settles O27: W is the schedule and the working words are those before each round, by one equation per round. -/
theorem compressFollowsItsPseudocode : Obligations.CompressFollowsItsPseudocode := by
  intro h block
  refine ⟨scheduleWord block, fun t => (workingBefore h block t).a, fun t => (workingBefore h block t).b,
    fun t => (workingBefore h block t).c, fun t => (workingBefore h block t).d, fun t => (workingBefore h block t).e,
    fun t => roundF t (workingBefore h block t).b (workingBefore h block t).c (workingBefore h block t).d, roundK,
    fun i hi => scheduleWord_of_lt block i hi, schedule_getD_of_le block, ⟨rfl, rfl, rfl, rfl, rfl⟩, fun t ht => ?_, ?_⟩
  · refine ⟨roundF_and_roundK t _ _ _, ?_⟩
    beta_reduce
    rw [workingBefore_succ h block t ht, ← rotl_eq_rotateLeft _ 5 (by decide), ← rotl_eq_rotateLeft _ 30 (by decide)]
    exact ⟨rfl, rfl, rfl, rfl, rfl⟩
  · rw [compress_eq_feedForward, feedForward]

/-- Settles O29: each phase has its function, and each function its law bit by bit. -/
theorem roundFunctionsActBitwise : Obligations.RoundFunctionsActBitwise := by
  refine ⟨fun t b c d i ht hi => ?_, fun t b c d => ⟨fun h => ?_, fun h => ?_, fun h => ?_⟩, fun t t' h h' => ?_,
    by decide, by decide, by decide, by decide⟩
  · by_cases h20 : t < 20
    · rw [if_pos h20, roundF_of_le_19 t (by omega), fCh_getLsbD b c d i hi]
    · by_cases hmaj : 40 ≤ t ∧ t < 60
      · rw [if_neg h20, if_pos hmaj, roundF_of_maj t (by omega), fMaj_getLsbD]
      · rw [if_neg h20, if_neg hmaj, roundF_of_parity t (by omega), fParity_getLsbD]
  · rw [roundF_of_le_19 t h, fCh]
  · rw [roundF_of_parity t h, fParity]
  · rw [roundF_of_maj t h, fMaj]
  · refine ⟨(roundF_of_parity t (.inl h)).trans (roundF_of_parity t' (.inr h')).symm, ?_⟩
    have hk : roundK t = 0x6ED9EBA1#32 := by rw [roundK, if_neg (by omega), if_pos h.2]
    have hk' : roundK t' = 0xCA62C1D6#32 := by
      rw [roundK, if_neg (by omega), if_neg (by omega), if_neg (by omega)]
    rw [hk, hk']
    decide

/-- Settles O30: bit by bit, with `rotl_rotl` for the way back. -/
theorem rotationLosesNoBits : Obligations.RotationLosesNoBits := by
  intro x n i h0 hn hi
  refine ⟨?_, rotl_rotl x n h0 hn⟩
  rw [rotl_getLsbD x n _ h0 hn (Nat.mod_lt _ (by decide))]
  congr 1
  omega

/-- Settles O31: the window gives every round its schedule word (`runWindow_eq`). -/
theorem windowedScheduleCompressesAlike : Obligations.WindowedScheduleCompressesAlike := by
  intro h block
  rw [compress_eq_feedForward, ← runWindow_eq h block 80 0 _ rfl (windowHolds_initial block)]
  rfl

/-- Settles O32: word 0 is the block's first four bytes. -/
theorem firstByteIsTheTopOfTheFirstWord : Obligations.FirstByteIsTheTopOfTheFirstWord := fun block =>
  ⟨_, schedule_getElem?_of_lt block 0 (by decide), be32_extract _ _ _ _⟩

end Sys2Proof.Machine
end

section
/-! SUPPORT. The digest of a message by FINALIZE and by HASH (43_finalize.md R89 to R95, 30_encoding.md R60). -/

namespace Sys2Proof.Machine

/-- R89 on an engine that holds a message. -/
theorem exec_finalize_of_holds (s : State) (m : List Byte) (hm : s.engine.Holds m) :
    exec .finalize s = .next { s with
      engine := { s.engine.pad with phase := .finalized }
      responses := s.responses ++ [⟨.ok, hashMessage m⟩] } := by
  rw [exec_finalize_of_active s hm.active, State.respond_ok, hm.digestBytes_pad]

/-- Settles O40: the digest of the padded engine is the hash of the message held (`Engine.Holds.digestBytes_pad`). -/
theorem finalizeAnswersTheHashOfTheMessage : Obligations.FinalizeAnswersTheHashOfTheMessage := fun s m hm =>
  ⟨_, exec_finalize_of_holds s m hm, rfl, rfl, rfl, rfl⟩

/-- Settles O42: INIT gives the fresh engine, the run of ABSORB makes it hold `m` (`run_absorbs`), and FINALIZE answers
the hash of what is held. -/
theorem hashCommandsAnswerTheHashOfTheMessage : Obligations.HashCommandsAnswerTheHashOfTheMessage := by
  intro m s rest hlt hp
  have hpending : s.pending = .command (encode .init) ::
      ((absorbsCommands m).map (fun i => .command (encode i)) ++ .command (encode .finalize) :: rest) := by
    rw [hp, hashCommands, List.map_cons, List.map_append, List.cons_append, List.append_assoc]
    rfl
  have hinit := (step_of_encode s .init _ hpending).trans (exec_init _)
  have hheld : (Engine.fresh.absorbBytes m).Holds m :=
    Engine.fresh_holds_nil.absorbBytes m (by rwa [List.length_nil, Nat.zero_add])
  have hroom : Engine.fresh.totalLength + m.length < 2 ^ 61 := by
    have hzero : Engine.fresh.totalLength = 0 := rfl
    omega
  rw [run_succ _ s _ hinit, run_add _ _ _ _ (run_absorbs m _ (.command (encode .finalize) :: rest) rfl rfl hroom),
    run_succ _ _ _ ((step_of_encode _ .finalize rest rfl).trans (exec_finalize_of_holds _ m hheld)), run_zero]
  refine ⟨_, rfl, rfl, ?_, rfl, ?_⟩
  · simp [List.replicate_succ]
  · simp

end Sys2Proof.Machine
end

section
/-! SUPPORT. The fault mark along a run and refused commands (60_exceptions.md R108, R115). -/

namespace Sys2Proof.Machine

/-- Only an error sets the mark, and nothing clears it (R115). -/
theorem step_faultMark_iff (s t : State) (h : step s = .next t) :
    t.faultMark = true ↔ s.faultMark = true ∨ ∃ r : Response, t.responses = s.responses ++ [r] ∧ r.code ≠ .ok := by
  obtain ⟨hnone, hmark⟩ | ⟨c, hc, herr, -, hmark⟩ | ⟨p, hok, hmark⟩ := step_answer_cases s t h
  · simp [hnone, hmark]
  · simp only [hmark, true_iff]
    exact .inr ⟨_, herr, hc⟩
  · simp [hok, hmark]

/-- A step that leaves the mark clear adds OK responses only. -/
theorem step_responses_of_unmarked (s t : State) (h : step s = .next t) (hmark : t.faultMark = false) :
    s.faultMark = false ∧ ∃ rs : List Response, t.responses = s.responses ++ rs ∧ ∀ r ∈ rs, r.code = .ok := by
  obtain ⟨hnone, hsame⟩ | ⟨c, -, -, -, hset⟩ | ⟨p, hok, hsame⟩ := step_answer_cases s t h
  · exact ⟨hsame ▸ hmark, [], by rw [hnone, List.append_nil], by simp⟩
  · simp [hset] at hmark
  · exact ⟨hsame ▸ hmark, _, hok, by simp⟩

/-- A refused command is one of two: anything but INIT on a finalized engine, or ABSORB at the length limit; it leaves
nothing but its response. -/
theorem exec_refused_cases (i : Instr) (s t : State) (code : ResponseCode) (h : exec i s = .next t)
    (hr : t.responses = s.responses ++ [⟨code, []⟩]) (hcode : code ≠ .ok) :
    t = s.raiseErr code ∧
      (code = .errFinalized ∧ s.engine.phase = .finalized ∧ i ≠ .init ∨
        code = .errLength ∧ s.engine.phase = .active ∧ s.engine.lengthFull = true ∧ ∃ d, i = .absorb d) := by
  obtain ⟨c, hc, hi, ht⟩ | ⟨-, ht⟩ | ⟨d, -, -, -, ht⟩ | ⟨hfin, hphase, ht⟩ := exec_cases i s <;> cases h.symm.trans ht
  · obtain rfl : c = code := by simpa using hr
    refine ⟨rfl, ?_⟩
    obtain ⟨rfl, hphase⟩ | ⟨rfl, hphase, hfull⟩ := hc
    · exact .inl ⟨rfl, hphase, hi⟩
    · refine .inr ⟨rfl, hphase, hfull, ?_⟩
      cases i with
      | init => exact absurd rfl hi
      | absorb d => exact ⟨d, rfl⟩
      | finalize => simp [exec_finalize_of_active s hphase, State.raiseErr, State.respond] at ht
  · exact absurd (by simpa using hr.symm) hcode
  · exact absurd (by simpa using hr.symm) hcode
  · simp [hcode.symm] at hr

/-- On a finalized engine every command but INIT is refused (R103). -/
theorem exec_of_finalized (i : Instr) (s : State) (hphase : s.engine.phase = .finalized) (hi : i ≠ .init) :
    exec i s = .next (s.raiseErr .errFinalized) := by
  cases i with
  | init => exact absurd rfl hi
  | absorb d => exact exec_absorb_of_finalized d s hphase
  | finalize => exact exec_finalize_of_finalized s hphase

/-! ### The obligations of 60_exceptions.md on what follows an error -/

/-- Settles O47: one step by `step_answer_cases`, a run by induction on its steps. -/
theorem faultMarkRecordsEveryError : Obligations.FaultMarkRecordsEveryError := by
  refine ⟨fun s t h => ?_, fun n => ?_⟩
  · have hiff := step_faultMark_iff s t h
    exact ⟨fun hs => hiff.2 (.inl hs), fun r hr hcode => hiff.2 (.inr ⟨r, hr, hcode⟩), hiff.1⟩
  · induction n with
    | zero =>
      intro s t h hmark
      cases h
      exact ⟨hmark, [], (List.append_nil _).symm, by simp⟩
    | succ n ih =>
      intro s t h hmark
      obtain ⟨u, hu, hrun⟩ := run_succ_cases n s t h
      obtain ⟨humark, rs', hrs', hok'⟩ := ih u t hrun hmark
      obtain ⟨hsmark, rs, hrs, hok⟩ := step_responses_of_unmarked s u hu (by simpa [State.noFaultRecorded] using humark)
      refine ⟨by simp [State.noFaultRecorded, hsmark], rs ++ rs', by rw [hrs', hrs, List.append_assoc], ?_⟩
      intro r hr
      exact (List.mem_append.1 hr).elim (hok r) (hok' r)

/-- Settles O49: what refused the first command is a fact about the unchanged engine, and it refuses the second alike. -/
theorem refusedCommandsStayRefused : Obligations.RefusedCommandsStayRefused := by
  intro i i' s t code h hr hcode hnext
  obtain ⟨rfl, ⟨rfl, hphase, hi⟩ | ⟨rfl, hphase, hfull, d, rfl⟩⟩ := exec_refused_cases i s t code h hr hcode
  · have hi' : i' ≠ .init := by
      obtain rfl | ⟨d, d', -, rfl⟩ | ⟨-, hi'⟩ := hnext
      · exact hi
      · simp
      · exact hi'
    exact ⟨_, exec_of_finalized i' _ hphase hi', rfl, rfl⟩
  · obtain ⟨d', rfl⟩ : ∃ d', i' = .absorb d' := by
      obtain rfl | ⟨_, d', -, rfl⟩ | ⟨hne, -⟩ := hnext
      · exact ⟨d, rfl⟩
      · exact ⟨d', rfl⟩
      · cases hne
    exact ⟨_, exec_absorb_of_lengthFull d' _ hphase hfull, rfl, rfl⟩

end Sys2Proof.Machine
end
